-- ==== Sys2Proof/Word.lean ====
section
/-! DEFINITION. The two word types of the block: a byte (`20_memory.md` R40) and a command word
(`30_encoding.md` R60). Bit 0 is the least significant bit of both (`00_scope.md` R10). -/

namespace Sys2Proof

/-- One byte of WB, SB or TX (`20_memory.md` R40). -/
abbrev Byte := BitVec 8

/-- One command word, presented to the command port as a whole (`30_encoding.md` R60). -/
abbrev CmdWord := BitVec 32

end Sys2Proof
end

