-- ==== Sys2Proof/Syntax.lean ====
section
/-! DEFINITION. The commands of the block, one constructor for each row of the opcode map
(`30_encoding.md` R64). The block executes commands where a processor executes instructions
(`00_scope.md` R1). -/

namespace Sys2Proof

/-- The five commands with their operands, at the widths of `30_encoding.md` R61 to R63. -/
inductive Instr where
  /-- `PLOT x, y, c` (`40_remap_plot.md` R87): column, row, and the value the pixel gets. -/
  | plot (x y : BitVec 8) (c : Bool)
  /-- `ENCODE` (`41_encode.md` R101). -/
  | encode
  /-- `ENCCLR` (`41_encode.md` R106). -/
  | encclr
  /-- `FRAME` (`42_frame.md` R120). -/
  | frame
  /-- `SBW addr, data` (`41_encode.md` R100): an address in SB and the byte to write there. -/
  | sbw (addr : BitVec 10) (data : Byte)
deriving DecidableEq, Repr

end Sys2Proof
end

