-- ==== Sys2Proof/WellFormed.lean ====
section
/-! DEFINITION. Which commands have operands in range, so that a command word stands for them. -/

namespace Sys2Proof

/-- The one operand constraint of the opcode map: the address of an SBW is below 896
(`30_encoding.md` R63, R64). A coordinate of a PLOT is never out of range as an operand: outside the
grid the command does nothing (`30_encoding.md` R66, last sentence). -/
def Instr.wellFormed : Instr → Bool
  | .plot _ _ _ => true
  | .encode => true
  | .encclr => true
  | .frame => true
  | .sbw addr _ => decide (addr.toNat < 896)

end Sys2Proof
end

