-- ==== Sys2Proof/Decode.lean ====
section
/-! DEFINITION. From command words to commands and back (`30_encoding.md` R60 to R67). -/

namespace Sys2Proof

/-- Why a word is malformed. The spec has one outcome for all of them, MalformedCommand
(`60_exceptions.md` R136); the names follow the cases of `30_encoding.md` R66. -/
inductive Malformed where
  /-- Case (a): the opcode is 0x00 or one of 0x06 to 0xFF. -/
  | reservedOpcode
  /-- Cases (b), (c) and (d): a bit that must be zero is not. -/
  | reservedBits
  /-- Case (e): an SBW whose address is 896 or more. -/
  | sbwAddress
deriving DecidableEq, Repr

/-- The opcode field, bits 31:24 (`30_encoding.md` R60). -/
def opcode (w : CmdWord) : BitVec 8 := w.extractLsb' 24 8

/-- Format N (`30_encoding.md` R61): a command without operands, whose bits 23:0 must be 0. -/
def decodeN (w : CmdWord) (i : Instr) : Except Malformed Instr :=
  if w.extractLsb' 0 24 = 0 then .ok i else .error .reservedBits

/-- Format P (`30_encoding.md` R62): bits 23:17 must be 0; C is bit 16, Y is 15:8, X is 7:0. -/
def decodeP (w : CmdWord) : Except Malformed Instr :=
  if w.extractLsb' 17 7 = 0 then
    .ok (.plot (w.extractLsb' 0 8) (w.extractLsb' 8 8) (w.getLsbD 16))
  else .error .reservedBits

/-- Format S (`30_encoding.md` R63): bits 23:18 must be 0; ADDR is 17:8 and below 896, DATA is 7:0. -/
def decodeS (w : CmdWord) : Except Malformed Instr :=
  if w.extractLsb' 18 6 = 0 then
    if (w.extractLsb' 8 10).toNat < 896 then .ok (.sbw (w.extractLsb' 8 10) (w.extractLsb' 0 8))
    else .error .sbwAddress
  else .error .reservedBits

/-- Decode (`30_encoding.md` R67), total on 32-bit words: opcode, then reserved bits, then the SBW
address (`60_exceptions.md` R144). -/
def decode (w : CmdWord) : Except Malformed Instr :=
  if opcode w = 0x01 then decodeP w
  else if opcode w = 0x02 then decodeN w .encode
  else if opcode w = 0x03 then decodeN w .encclr
  else if opcode w = 0x04 then decodeN w .frame
  else if opcode w = 0x05 then decodeS w
  else .error .reservedOpcode

/-- The inverse of decode, `encode_cmd` of `30_encoding.md` R67. -/
def encodeCmd : Instr → CmdWord
  | .plot x y c =>
    0x01000000#32 ||| ((if c then 1#32 else 0#32) <<< 16) ||| (y.setWidth 32 <<< 8) ||| x.setWidth 32
  | .encode => 0x02000000#32
  | .encclr => 0x03000000#32
  | .frame => 0x04000000#32
  | .sbw addr data => 0x05000000#32 ||| (addr.setWidth 32 <<< 8) ||| data.setWidth 32

/-- The `mask` column of the opcode map (`30_encoding.md` R64): the bits that a row fixes. -/
def rowMask : Instr → CmdWord
  | .plot _ _ _ => 0xFFFE0000#32
  | .encode => 0xFFFFFFFF#32
  | .encclr => 0xFFFFFFFF#32
  | .frame => 0xFFFFFFFF#32
  | .sbw _ _ => 0xFFFC0000#32

/-- The `match` column of the opcode map (`30_encoding.md` R64): what a row's fixed bits hold. -/
def rowMatch : Instr → CmdWord
  | .plot _ _ _ => 0x01000000#32
  | .encode => 0x02000000#32
  | .encclr => 0x03000000#32
  | .frame => 0x04000000#32
  | .sbw _ _ => 0x05000000#32

/-- The command word whose table bits are `w`: the low `nbits` bits of `w`, every bit above them 0. A
command word is one unit without a byte order (`30_encoding.md` R60), so bit `n` of the table is bit `n`
of the word. DEDUCED, safe (log entry 8). -/
def tableWord (nbits w : Nat) : CmdWord := BitVec.ofNat 32 (w % 2 ^ nbits)

/-- What the decoder reads from a word numbered as the opcode table numbers its bits. -/
def decodeTableWord (nbits w : Nat) : Option Instr :=
  match decode (tableWord nbits w) with
  | .ok i => some i
  | .error _ => none

end Sys2Proof
end

