-- ==== Sys2Proof/Config.lean ====
section
/-! DEFINITION. What the spec leaves open: the content of the source-bitmap store after a reset. -/

namespace Sys2Proof

/-- `SB_RESET` (`00_scope.md` R8, `10_state.md` R23, `93_implementation_defined.md` U1): the byte that
address `addr` of SB holds after reset number `draw`, until it is written. A free value: it has no body,
so nothing can be proved of it. The counter `draw` gives each reset bytes of its own.
DESIGN CHOICE, safe: the spec leaves the bytes open and the model fixes none (log entry 1). -/
opaque Config.sbReset (draw addr : Nat) : Byte

end Sys2Proof
end

