-- ==== Sys2Proof/Machine/State.lean ====
section
/-! DEFINITION. The state of the block (`10_state.md` R29), what the host has queued for it, and the
state after reset (`70_reset_and_hazards.md` R156). -/

namespace Sys2Proof.Machine

/-- What the host does to the block (`70_reset_and_hazards.md` R166). Observation changes nothing and is
no event. -/
inductive HostEvent where
  /-- The host presents one command word. -/
  | command (w : CmdWord)
  /-- The host asserts and releases reset between two commands (R155). -/
  | reset
  /-- The host asserts reset while the command `w` is running; it is abandoned (R155). -/
  | resetDuring (w : CmdWord)
deriving DecidableEq, Repr

/-- A memory as (address, byte) pairs, addresses strictly rising. An address that is not listed has
the space's value for unlisted addresses: see `wbGet` and `sbGet`. -/
abbrev Memory := List Host.Cell

/-- All state of the block. TBL is a constant (`10_state.md` R24), not a field. -/
structure State where
  /-- WB, the working buffer of 1175 bytes (`10_state.md` R22). -/
  wb : Memory
  /-- SB, the source-bitmap store of 896 bytes (`10_state.md` R23): the bytes written since reset. -/
  sb : Memory
  /-- TX, the output stream, oldest byte first (`10_state.md` R26). -/
  tx : List Byte
  /-- STAT (`10_state.md` R25): ERR in bits 1:0, ESTK in bit 2. -/
  stat : BitVec 3
  /-- The command index (`10_state.md` R21): how many commands have completed since reset. -/
  ci : Nat
  /-- The host's events that the block has not taken yet, next one first: the rest of the program
  (`00_scope.md` R16). The model's own field. DESIGN CHOICE, safe: the host's program has to stand
  somewhere for a step to read it (log entry 2). -/
  port : List HostEvent
  /-- How many resets came before this one: selects the draw of `SB_RESET`. The model's own field. DESIGN
  CHOICE, safe: every reset has bytes of its own (log entry 1). -/
  draws : Nat
deriving DecidableEq, Repr

/-- The state after reset (`70_reset_and_hazards.md` R156, `10_state.md` R29). No byte of WB is listed, so
every one reads as 0; no byte of SB is listed, so every one reads as the free value `SB_RESET`. -/
def State.reset : State :=
  { wb := [], sb := [], tx := [], stat := 0#3, ci := 0, port := [], draws := 0 }

/-- The errors of `60_exceptions.md` R135 that the block has codes for. -/
inductive Err where
  /-- A command word that matches no row of the opcode map (R136). -/
  | malformedCommand
  /-- `frame` on a buffer whose length is not 1175 (R137). -/
  | bufferLengthViolation
deriving DecidableEq, Repr

/-- Reasons for the machine to stop. There are none: the block has no fatal error and no halt state
(`60_exceptions.md` R140), and no command forms an address outside its space (`20_memory.md` R45). A
rejected command is a next state, `State.raise`. -/
inductive Fault where
deriving DecidableEq, Repr

/-- Reasons for the model to give an instruction no meaning. -/
inductive Refusal where
  /-- Raised by an arm of `exec` whose instruction has no meaning yet. Safe: nothing can be proved of
  what the instruction does. No arm raises it. -/
  | notModelled (mnemonic : String)
deriving DecidableEq, Repr

end Sys2Proof.Machine
end

