-- ==== Sys2Proof/Machine/Flags.lean ====
section
/-! DEFINITION. The fields of STAT and how command completion writes them (`10_state.md` R25). The block
has no other flag (`10_state.md` R28). -/

namespace Sys2Proof.Machine

/-- STAT.ERR, bits 1:0 (`10_state.md` R25). -/
def statErr (stat : BitVec 3) : BitVec 2 := stat.extractLsb' 0 2

/-- STAT.ESTK, bit 2 (`10_state.md` R25). -/
def statEstk (stat : BitVec 3) : Bool := stat.getLsbD 2

/-- STAT made of its two fields (`10_state.md` R25). -/
def statOf (err : BitVec 2) (estk : Bool) : BitVec 3 := BitVec.ofBool estk ++ err

/-- `STAT.ERR <- err`, ESTK left alone (`10_state.md` R25). -/
def setErr (err : BitVec 2) (stat : BitVec 3) : BitVec 3 := statOf err (statEstk stat)

/-- The ERR code of an error (`60_exceptions.md` R135). -/
def Err.code : Err → BitVec 2
  | .malformedCommand => 1
  | .bufferLengthViolation => 2

end Sys2Proof.Machine
end

