-- ==== Sys2Proof/Machine/Ops.lean ====
section
/-! DEFINITION. The named operations over memory and state that every command is written with: bytes of
WB and SB, completing and rejecting a command, reset, and taking an event from the port. -/

namespace Sys2Proof.Machine

/-! ### Memories as lists of cells -/

/-- The byte listed at `a`, if one is. -/
def Memory.lookup (a : Nat) : Memory → Option Byte
  | [] => none
  | (b, v) :: m => if a = b then some v else Memory.lookup a m

/-- List the byte `v` at `a`, in place of what was listed there, keeping the addresses rising. -/
def Memory.insert (a : Nat) (v : Byte) : Memory → Memory
  | [] => [(a, v)]
  | (b, w) :: m =>
    if a < b then (a, v) :: (b, w) :: m
    else if a = b then (a, v) :: m
    else (b, w) :: Memory.insert a v m

/-- List no byte at `a`. -/
def Memory.erase (a : Nat) (m : Memory) : Memory := m.filter (fun cell => cell.1 ≠ a)

/-- The canonical form: addresses strictly rising and below `size`, and no entry equal to what an
unlisted address holds (`none`: an unlisted address holds no byte yet). -/
abbrev Memory.wf (size : Nat) (unlisted : Option Byte) (m : Memory) : Prop :=
  m.Pairwise (fun p q => p.1 < q.1) ∧ ∀ cell ∈ m, cell.1 < size ∧ some cell.2 ≠ unlisted

/-! ### The working buffer -/

/-- What an unlisted index of WB reads as: its reset content, 0 (`10_state.md` R22). -/
def wbUnlisted : Byte := 0

/-- `WB[i]` (`00_scope.md` R12). -/
def wbGet (m : Memory) (i : Nat) : Byte := (Memory.lookup i m).getD wbUnlisted

/-- `WB[i] <- v` (`00_scope.md` R12). -/
def wbSet (m : Memory) (i : Nat) (v : Byte) : Memory :=
  if v = wbUnlisted then Memory.erase i m else Memory.insert i v m

/-- `WB[0..1175]`: the whole buffer as a byte sequence (`00_scope.md` R13). -/
def wbBytes (m : Memory) : List Byte := (List.range 1175).map (wbGet m)

/-! ### The source-bitmap store -/

/-- `SB[a]` (`00_scope.md` R12). A byte that nothing has written since reset is the free value
`SB_RESET` (`70_reset_and_hazards.md` R156). DESIGN CHOICE: an unlisted address holds no byte of its own
and a written byte stays listed, whatever the free value is; unsafe only for a claim that two states
that read alike are different data (log entry 1). -/
def sbGet (s : State) (a : Nat) : Byte := (Memory.lookup a s.sb).getD (Config.sbReset s.draws a)

/-- `SB[a] <- v` (`00_scope.md` R12). -/
def sbSet (s : State) (a : Nat) (v : Byte) : State := { s with sb := Memory.insert a v s.sb }

/-- Every memory of the state is in canonical form. -/
abbrev State.memWf (s : State) : Prop :=
  Memory.wf 1175 (some wbUnlisted) s.wb ∧ Memory.wf 896 none s.sb

/-! ### How a command ends -/

/-- A command that executes ends with `STAT.ERR <- 0` and leaves ESTK alone (`60_exceptions.md` R138). -/
def State.complete (s : State) : State := { s with stat := setErr 0 s.stat }

/-- `raise` (`60_exceptions.md` R138): the command is rejected. ERR gets the error's code, ESTK is set,
and nothing else changes: nothing is saved, control goes nowhere, and there is no return (R140). -/
def State.raise (e : Err) (s : State) : State := { s with stat := statOf e.code true }

/-- `TX <- TX ++ out` (`00_scope.md` R12, `10_state.md` R26). -/
def State.emit (out : List Byte) (s : State) : State := { s with tx := s.tx ++ out }

/-! ### The host interface -/

/-- A command word leaves the port, and the command index counts it: by 1, whether the command
succeeds or is rejected (`10_state.md` R21). No command reads either, and commands are atomic
(`00_scope.md` R15), so counting it here or at its end is the same. DEDUCED, safe (log entry 6). -/
def State.takeCommand (rest : List HostEvent) (s : State) : State :=
  { s with port := rest, ci := s.ci + 1 }

/-- The reset signal (`70_reset_and_hazards.md` R155): the state of R156, with a fresh draw of `SB_RESET`.
What the host has still to do is the host's and stays. DESIGN CHOICE, safe: the signal is an event of
the host's list, and a reset during a command drops that command whole (log entries 1 and 2). -/
def State.applyReset (rest : List HostEvent) (s : State) : State :=
  { State.reset with port := rest, draws := s.draws + 1 }

end Sys2Proof.Machine
end

