-- ==== Sys2Proof/Machine/Operands.lean ====
section
/-! DEFINITION. From operands to places: the remap table and the address computation of a pixel
(`40_remap_plot.md` R80 to R94), and the pixel of a source bitmap (`20_memory.md` R42). All quantities are
natural numbers with floor division (`00_scope.md` R11). -/

namespace Sys2Proof.Machine

/-- PixelRemapTable (`40_remap_plot.md` R80), row RowInStripe first. -/
def tblRows : List (List Nat) :=
  [[13, 19, 25, 31, 37, 43, 49],
   [ 0, 20, 26, 32, 38, 44, 50],
   [ 1,  7, 27, 33, 39, 45, 51],
   [ 2,  8, 14, 34, 40, 46, 52],
   [ 3,  9, 15, 21, 41, 47, 53],
   [ 4, 10, 16, 22, 28, 48, 54],
   [ 5, 11, 17, 23, 29, 35, 55],
   [ 6, 12, 18, 24, 30, 36, 42]]

/-- `TBL[r][c]` (`00_scope.md` R12), for `r` in 0..7 and `c` in 0..6. -/
def tbl (r c : Nat) : Nat := (tblRows.getD r []).getD c 0

/-! ### `remap` (`40_remap_plot.md` R82), quantity by quantity, with the ranges of R84 on the grid -/

/-- StripeIndex, 0..7 (R84). -/
def stripeIndex (y : Nat) : Nat := y / 8

/-- RowInStripe, 0..7 (R84). -/
def rowInStripe (y : Nat) : Nat := y % 8

/-- The linear column, 0..1023 (R84): the pixel's place when the eight stripes are laid side by side. -/
def linCol (x y : Nat) : Nat := x + 128 * stripeIndex y

/-- ColumnGroup, 0..146 (R84). -/
def colGroup (x y : Nat) : Nat := linCol x y / 7

/-- ColInGroup, 0..6, and 0 or 1 in group 146 (R84). -/
def colInGroup (x y : Nat) : Nat := linCol x y % 7

/-- PermutedBitPosition, 0..55 (R84). -/
def permutedBit (x y : Nat) : Nat := tbl (rowInStripe y) (colInGroup x y)

/-- ByteOffset, 4..1174 (R84): the index in WB of the byte that holds the pixel. -/
def byteOffset (x y : Nat) : Nat := 4 + colGroup x y * 8 + permutedBit x y / 7

/-- BitOffset, 0..6 (R84): the pixel's bit in that byte. -/
def bitOffset (x y : Nat) : Nat := permutedBit x y % 7

/-! ### `remap` at the widths of `40_remap_plot.md` R84 -/

/-- Every quantity of `remap` at the width that R84 gives it. -/
structure RemapWires where
  /-- StripeIndex `s`. -/
  stripe : BitVec 3
  /-- RowInStripe `r`. -/
  row : BitVec 3
  /-- The linear column `lin`. -/
  lin : BitVec 10
  /-- ColumnGroup `g`. -/
  group : BitVec 8
  /-- ColInGroup `c`. -/
  col : BitVec 3
  /-- PermutedBitPosition `p`. -/
  permuted : BitVec 6
  /-- `p div 7`, the byte in the group. -/
  byteInGroup : BitVec 3
  /-- BitOffset. -/
  bit : BitVec 3
  /-- The mask `1 << BitOffset`. -/
  mask : BitVec 7
  /-- ByteOffset. -/
  byte : BitVec 11
deriving DecidableEq, Repr

/-- The address computation on wires: bit fields, a concatenation, two divisions by 7, one lookup and one
addition (`40_remap_plot.md` R83), each result held at its width (R84). A result that needed a wider wire
would wrap here. -/
def remapWires (x : BitVec 7) (y : BitVec 6) : RemapWires :=
  let stripe := y.extractLsb' 3 3
  let row := y.extractLsb' 0 3
  let lin := stripe ++ x
  let group := (lin / 7).setWidth 8
  let col := (lin % 7).setWidth 3
  let permuted := BitVec.ofNat 6 (tbl row.toNat col.toNat)
  let byteInGroup := (permuted / 7).setWidth 3
  let bit := (permuted % 7).setWidth 3
  { stripe, row, lin, group, col, permuted, byteInGroup, bit
    mask := 1 <<< bit.toNat
    byte := 4 + (group ++ 0#3) + byteInGroup.setWidth 11 }

/-! ### The inverse of `remap` (`40_remap_plot.md` R85, R94) -/

/-- The row `r` and column `c` of the table at which the value `p` stands (R85). -/
def tblInverse (p : Nat) : Nat × Nat :=
  let n := 7 * (p / 7) + 6 - p % 7
  (7 - n % 8, n / 8)

/-- The coordinate whose pixel is bit `b` of `WB[i]`, for `i` in 4..1174 and `b` in 0..6 (R94); none
where the place is no cell. -/
def cellCoord (i b : Nat) : Option (Nat × Nat) :=
  let g := (i - 4) / 8
  let p := 7 * ((i - 4) % 8) + b
  let (r, c) := tblInverse p
  let lin := 7 * g + c
  if 1024 ≤ lin then none else some (lin % 128, 8 * (lin / 128) + r)

/-! ### One pixel of a source bitmap -/

/-- The address in SB of the byte that holds the pixel painted at visible column `x` of visible row `y`
(`41_encode.md` R103): rows are read from the last to the first. -/
def sourceAddr (x y : Nat) : Nat := (55 - y) * 16 + x / 8

/-- The pixel painted at visible `(x, y)`, in a source whose byte `a` is `src a`: bit `x mod 8` counted
from the most significant bit (`41_encode.md` R101, `20_memory.md` R42). -/
def sourcePixel (src : Nat → Byte) (x y : Nat) : Bool :=
  (src (sourceAddr x y) >>> (7 - x % 8)) &&& 1 = 1

end Sys2Proof.Machine
end

