-- ==== Sys2Proof/Machine/Plot.lean ====
section
/-! DEFINITION. The procedure `plot` (`40_remap_plot.md` R86) and the command PLOT (R87). -/

namespace Sys2Proof.Machine

/-- The byte whose one set bit is bit `b` (`20_memory.md` R41). -/
def bitMask (b : Nat) : Byte := 1#8 <<< b

/-- `plot(x, y, c)` on WB (`40_remap_plot.md` R86): nothing outside the 128 × 64 grid, one bit of one
byte inside it. The complement of the mask is taken in 8 bits. -/
def plot (x y : Nat) (c : Bool) (wb : Memory) : Memory :=
  if x ≥ 128 ∨ y ≥ 64 then wb
  else if c then
    wbSet wb (byteOffset x y) (wbGet wb (byteOffset x y) ||| bitMask (bitOffset x y))
  else
    wbSet wb (byteOffset x y) (wbGet wb (byteOffset x y) &&& (0xFF#8 ^^^ bitMask (bitOffset x y)))

/-- PLOT (`40_remap_plot.md` R87). -/
def execPlot (x y : BitVec 8) (c : Bool) (s : State) : Host.Outcome State Fault Refusal :=
  .next ({ s with wb := plot x.toNat y.toNat c s.wb } : State).complete

end Sys2Proof.Machine
end

