-- ==== Sys2Proof/Machine/Bitmap.lean ====
section
/-! DEFINITION. Loading the source bitmap and encoding it: SBW, ENCODE, ENCCLR (`41_encode.md`). -/

namespace Sys2Proof.Machine

/-- Step 1 of ENCODE (`41_encode.md` R101, R102): every one of the 1175 bytes of WB becomes 0. -/
def zeroFill (wb : Memory) : Memory :=
  (List.range 1175).foldl (fun m i => wbSet m i 0) wb

/-- One row of the clear pass (`41_encode.md` R101). -/
def clearRow (y : Nat) (wb : Memory) : Memory :=
  (List.range 128).foldl (fun m x => plot x y false m) wb

/-- Step 2 of ENCODE, the clear pass (`41_encode.md` R101, R102). -/
def clearPass (wb : Memory) : Memory :=
  (List.range 64).foldl (fun m y => clearRow y m) wb

/-- One visible row of the paint pass (`41_encode.md` R103): every lit pixel of the source row is
plotted, 4 columns and 4 rows into the grid. -/
def paintRow (src : Nat → Byte) (y : Nat) (wb : Memory) : Memory :=
  (List.range 120).foldl
    (fun m x => if sourcePixel src x y then plot (x + 4) (y + 4) true m else m) wb

/-- Step 3 of ENCODE, the paint pass (`41_encode.md` R101, R103). -/
def paintPass (src : Nat → Byte) (wb : Memory) : Memory :=
  (List.range 56).foldl (fun m y => paintRow src y m) wb

/-- The three steps of ENCODE in their order, for a source whose byte `a` is `src a`
(`41_encode.md` R101). -/
def encodeBitmap (src : Nat → Byte) (wb : Memory) : Memory :=
  paintPass src (clearPass (zeroFill wb))

/-- ENCODE (`41_encode.md` R101). -/
def execEncode (s : State) : Host.Outcome State Fault Refusal :=
  .next ({ s with wb := encodeBitmap (sbGet s) s.wb } : State).complete

/-- ENCCLR (`41_encode.md` R106): ENCODE with every source byte read as 0. -/
def execEncclr (s : State) : Host.Outcome State Fault Refusal :=
  .next ({ s with wb := encodeBitmap (fun _ => 0) s.wb } : State).complete

/-- SBW (`41_encode.md` R100). An address of 896 or more is no SBW: its word is malformed and is rejected
before any write (`30_encoding.md` R66). DEDUCED, safe: no word decodes to such a term (log entry 4). -/
def execSbw (addr : BitVec 10) (data : Byte) (s : State) : Host.Outcome State Fault Refusal :=
  if addr.toNat < 896 then .next (sbSet s addr.toNat data).complete
  else .next (s.raise .malformedCommand)

end Sys2Proof.Machine
end

