-- ==== Sys2Proof/Machine/Frame.lean ====
section
/-! DEFINITION. Framing the working buffer into the message: FRAME (`42_frame.md`). -/

namespace Sys2Proof.Machine

/-- The five bytes that open every message (`42_frame.md` R123). -/
def msgOpening : List Byte := [240, 71, 127, 67, 14]

/-- The byte that closes every message (`42_frame.md` R123). -/
def msgTerminator : List Byte := [247]

/-- The header constant, an opaque literal (`42_frame.md` R121). -/
def msgHeader : List Byte := [0, 7, 0, 127]

/-- The length field: high 7 bits, then low 7 bits (`42_frame.md` R122, `20_memory.md` R43). -/
def lengthField (len : Nat) : List Byte := [BitVec.ofNat 8 (len >>> 7), BitVec.ofNat 8 (len &&& 0x7F)]

/-- The document's `frame(buf)` on any byte sequence (`42_frame.md` R124): the length is checked before
anything else. -/
def frame (buf : List Byte) : Except Err (List Byte) :=
  if buf.length ≠ 1175 then .error .bufferLengthViolation
  else .ok (msgOpening ++ lengthField 1175 ++ (msgHeader ++ buf.drop 4) ++ msgTerminator)

/-- The header overwrite `WB[0..4] <- [0, 7, 0, 127]` (`42_frame.md` R120, R121). -/
def writeHeader (wb : Memory) : Memory :=
  wbSet (wbSet (wbSet (wbSet wb 0 0) 1 7) 2 0) 3 127

/-- What FRAME does with the answer of `frame`: the header overwrite and the append of `42_frame.md` R120,
or, for a buffer of another length, the rejection of `60_exceptions.md` R137, which appends nothing.
DEDUCED, safe: that the rejection leaves the header of WB alone and sets ESTK; no state reaches it (log
entry 7). -/
def finishFrame (answer : Except Err (List Byte)) (s : State) : State :=
  match answer with
  | .ok msg => (({ s with wb := writeHeader s.wb } : State).emit msg).complete
  | .error e => s.raise e

/-- FRAME (`42_frame.md` R120): `frame` applied to WB (R124). WB has no length but 1175, so the answer is
always a message. -/
def execFrame (s : State) : Host.Outcome State Fault Refusal :=
  .next (finishFrame (frame (wbBytes s.wb)) s)

end Sys2Proof.Machine
end

