-- ==== Sys2Proof/Machine/Dispatch.lean ====
section
/-! DEFINITION. One arm for each command. -/

namespace Sys2Proof.Machine

/-- What a decoded command does, from its first read to its write of STAT. -/
def exec (i : Instr) (s : State) : Host.Outcome State Fault Refusal :=
  match i with
  | .plot x y c => Sys2Proof.Machine.execPlot x y c s
  | .encode => Sys2Proof.Machine.execEncode s
  | .encclr => Sys2Proof.Machine.execEncclr s
  | .frame => Sys2Proof.Machine.execFrame s
  | .sbw addr data => Sys2Proof.Machine.execSbw addr data s

end Sys2Proof.Machine
end

