-- ==== Sys2Proof/Machine/Step.lean ====
section
/-! DEFINITION. One step of the block: it takes the next event of the host (`70_reset_and_hazards.md` R166)
and completes it (`00_scope.md` R15). -/

namespace Sys2Proof.Machine

/-- One command word: decoded wholly before it is executed, and either executed or rejected
(`60_exceptions.md` R138, R144). -/
def runWord (w : CmdWord) (s : State) : Host.Outcome State Fault Refusal :=
  match decode w with
  | .ok i => exec i s
  | .error _ => .next (s.raise .malformedCommand)

/-- One step. With no event in the port the block waits and its state stays as it is. DESIGN CHOICE,
safe: nothing changes the block but a command or a reset (log entry 3). -/
def step (s : State) : Host.Outcome State Fault Refusal :=
  match s.port with
  | [] => .next s
  | .command w :: rest => runWord w (s.takeCommand rest)
  | .reset :: rest => .next (s.applyReset rest)
  | .resetDuring _ :: rest => .next (s.applyReset rest)

/-- `s` with the command word of a table row presented next. -/
def State.withFetchWord (s : State) (nbits w : Nat) : State :=
  { s with port := .command (tableWord nbits w) :: s.port }

end Sys2Proof.Machine
end

