-- ==== Sys2Proof/Machine/Assembler.lean ====
section
/-! DEFINITION. The assembler lines and pseudo-commands of `30_encoding.md` R68, R69: how a host writes
the words it presents. -/

namespace Sys2Proof.Machine

/-- One line of a program, with its operands as written (`30_encoding.md` R68, R69). -/
inductive AsmLine where
  | plot (x y c : Nat)
  | encode
  | encclr
  | frame
  | sbw (addr data : Nat)
  | setpix (x y : Nat)
  | clrpix (x y : Nat)
  | render
  | rendclr
  | loadsb (bytes : List Nat)
deriving DecidableEq, Repr

/-- A `PLOT` line; an operand outside its range is rejected (`30_encoding.md` R68). -/
def asmPlot (x y c : Nat) : Option (List Instr) :=
  if x ≤ 255 ∧ y ≤ 255 ∧ c ≤ 1 then some [.plot (BitVec.ofNat 8 x) (BitVec.ofNat 8 y) (c = 1)] else none

/-- An `SBW` line; an operand outside its range is rejected (`30_encoding.md` R68). -/
def asmSbw (addr data : Nat) : Option (List Instr) :=
  if addr ≤ 895 ∧ data ≤ 255 then some [.sbw (BitVec.ofNat 10 addr) (BitVec.ofNat 8 data)] else none

/-- The SBW lines of `LOADSB`, from address `addr` on (`30_encoding.md` R69). -/
def asmLoad (addr : Nat) : List Nat → Option (List Instr)
  | [] => some []
  | b :: bs =>
    match asmSbw addr b, asmLoad (addr + 1) bs with
    | some i, some is => some (i ++ is)
    | _, _ => none

/-- The commands a line stands for; a pseudo-command is replaced by its expansion (`30_encoding.md`
R69), and a line the assembler rejects has none. DEDUCED, safe: `LOADSB` is rejected with any number of
bytes but 896 (log entry 9). -/
def expandLine : AsmLine → Option (List Instr)
  | .plot x y c => asmPlot x y c
  | .encode => some [.encode]
  | .encclr => some [.encclr]
  | .frame => some [.frame]
  | .sbw addr data => asmSbw addr data
  | .setpix x y => asmPlot x y 1
  | .clrpix x y => asmPlot x y 0
  | .render => some [.encode, .frame]
  | .rendclr => some [.encclr, .frame]
  | .loadsb bytes => if bytes.length = 896 then asmLoad 0 bytes else none

/-- The command words of a line. -/
def assembleLine (l : AsmLine) : Option (List CmdWord) := (expandLine l).map (·.map encodeCmd)

end Sys2Proof.Machine
end

