-- ==== Sys2Proof/Safety.lean ====
section
/-! DEFINITION. What counts as a sound state of the block: the invariants of WB (`10_state.md` R30), of
STAT (R25) and of TX (`42_frame.md` R123, R125), and the canonical form of both memories. -/

namespace Sys2Proof.Machine

/-- The header region `WB[0..4]` (`10_state.md` R22). -/
def wbHeader (wb : Memory) : List Byte := [wbGet wb 0, wbGet wb 1, wbGet wb 2, wbGet wb 3]

/-- The invariants of WB (`10_state.md` R30). That WB has exactly 1175 bytes (item 1) is that no index
of 1175 or more is listed, a part of the canonical form. -/
structure WbInv (wb : Memory) : Prop where
  canonical : Memory.wf 1175 (some wbUnlisted) wb
  sevenBitClean : ∀ i, 4 ≤ i → i < 1175 → (wbGet wb i).getLsbD 7 = false
  lastByteLow : (wbGet wb 1174).extractLsb' 0 5 = 0
  header : wbHeader wb = [0, 0, 0, 0] ∨ wbHeader wb = [0, 7, 0, 127]

/-- STAT holds a value that command completion can leave (`10_state.md` R25, `60_exceptions.md` R137,
R138): ERR is 0 or 1, and ESTK is set where ERR is 1. -/
def StatInv (stat : BitVec 3) : Prop :=
  statErr stat = 0 ∨ (statErr stat = 1 ∧ statEstk stat = true)

/-- `m` is a message (`42_frame.md` R123) and 7-bit clean between its first and last byte (R125). -/
def IsMessage (m : List Byte) : Prop :=
  ∃ data : List Byte, data.length = 1171 ∧ (∀ v ∈ data, v.getLsbD 7 = false) ∧
    m = [240, 71, 127, 67, 14, 9, 23, 0, 7, 0, 127] ++ data ++ [247]

/-- TX is a sequence of whole messages (`10_state.md` R26). -/
def TxInv (tx : List Byte) : Prop :=
  ∃ msgs : List (List Byte), tx = msgs.flatten ∧ ∀ m ∈ msgs, IsMessage m

/-- The invariant of the block. -/
structure Inv (s : State) : Prop where
  wb : WbInv s.wb
  sb : Memory.wf 896 none s.sb
  stat : StatInv s.stat
  tx : TxInv s.tx

/-- What no command writes: the command index, the host's remaining events and the draw of
`SB_RESET`. The events and the draw are the model's own fields (log entries 2 and 1). `10_state.md` R21
has the command index grow when a command completes; that `step` counts the command when it takes the
word, so that `exec` leaves the index alone, is the model's choice (DEDUCED, log entry 6). -/
def SameHost (s t : State) : Prop := t.ci = s.ci ∧ t.port = s.port ∧ t.draws = s.draws

/-- WB of `t` reads as WB of `s`, at every index. -/
def SameWb (s t : State) : Prop := ∀ i, wbGet t.wb i = wbGet s.wb i

/-- SB of `t` reads as SB of `s`, at every address. -/
def SameSb (s t : State) : Prop := ∀ a, sbGet t a = sbGet s a

/-- A command ended well: ERR is 0 and ESTK is as it was (`60_exceptions.md` R138). -/
def EndsOk (s t : State) : Prop := statErr t.stat = 0 ∧ statEstk t.stat = statEstk s.stat

/-- A command was rejected (`60_exceptions.md` R138): ERR is 1, ESTK is set, and WB, SB and TX are
untouched. -/
def Rejected (s t : State) : Prop :=
  statErr t.stat = 1 ∧ statEstk t.stat = true ∧ t.wb = s.wb ∧ t.sb = s.sb ∧ t.tx = s.tx ∧ SameHost s t

/-- The commands of a list, one after another (`20_memory.md` R51). -/
def execAll : List Instr → State → Host.Outcome State Fault Refusal
  | [], s => .next s
  | i :: is, s =>
    match exec i s with
    | .next t => execAll is t
    | .fault f => .fault f
    | .refused r => .refused r

/-- Plots at `(x, y)` with value `c`, one after another, for a list of `(x, y, c)`. -/
def plotAll (l : List (Nat × Nat × Bool)) (wb : Memory) : Memory :=
  l.foldl (fun m p => plot p.1 p.2.1 p.2.2 m) wb

end Sys2Proof.Machine
end

