-- ==== Sys2Proof/Certificates/Slice0/Obligations.lean ====
section
/-! DEFINITION. The statements about the block, from the numbered rules of `spec/`. -/

open Sys2Proof Sys2Proof.Machine

/-! ### Reset -/

/-- `70_reset_and_hazards.md` R156: the state after reset. Of SB nothing is said: its bytes are the open
parameter `SB_RESET`. -/
def Obligations.ResetState : Prop :=
  (∀ i, i < 1175 → wbGet State.reset.wb i = 0) ∧
  tblRows =
    [[13, 19, 25, 31, 37, 43, 49], [0, 20, 26, 32, 38, 44, 50], [1, 7, 27, 33, 39, 45, 51],
     [2, 8, 14, 34, 40, 46, 52], [3, 9, 15, 21, 41, 47, 53], [4, 10, 16, 22, 28, 48, 54],
     [5, 11, 17, 23, 29, 35, 55], [6, 12, 18, 24, 30, 36, 42]] ∧
  State.reset.tx = [] ∧ statErr State.reset.stat = 0 ∧ statEstk State.reset.stat = false ∧
  State.reset.ci = 0

/-- `70_reset_and_hazards.md` R155: the reset signal, between commands or while a command runs, leaves
the state after reset, whatever the state was and whichever command was running. That the signal is an
event in the list of the host's events is the model's choice (log entry 2), and so is the count of
resets that gives SB a new draw of `SB_RESET` (log entry 1). -/
def Obligations.ResetSignalResets : Prop :=
  ∀ (s : State) (rest : List HostEvent) (w : CmdWord),
    s.port = .reset :: rest ∨ s.port = .resetDuring w :: rest →
    ∃ t, step s = .next t ∧ (∀ i, i < 1175 → wbGet t.wb i = 0) ∧ t.sb = State.reset.sb ∧
      t.tx = [] ∧ statErr t.stat = 0 ∧ statEstk t.stat = false ∧ t.ci = 0 ∧ t.port = rest ∧
      t.draws = s.draws + 1

/-! ### The table and the address computation -/

/-- `40_remap_plot.md` R80: the entries of the table, row by row, and each value of 0..55 at exactly one
place. -/
def Obligations.TableIsBijection : Prop :=
  (List.range 8).map (fun r => (List.range 7).map (tbl r)) =
    [[13, 19, 25, 31, 37, 43, 49], [0, 20, 26, 32, 38, 44, 50], [1, 7, 27, 33, 39, 45, 51],
     [2, 8, 14, 34, 40, 46, 52], [3, 9, 15, 21, 41, 47, 53], [4, 10, 16, 22, 28, 48, 54],
     [5, 11, 17, 23, 29, 35, 55], [6, 12, 18, 24, 30, 36, 42]] ∧
  (∀ r, r < 8 → ∀ c, c < 7 → tbl r c < 56) ∧
  ∀ p, p < 56 → ∃ r, r < 8 ∧ ∃ c, c < 7 ∧ tbl r c = p ∧
    ∀ r', r' < 8 → ∀ c', c' < 7 → tbl r' c' = p → r' = r ∧ c' = c

/-- `40_remap_plot.md` R85: the closed form of the table and of its inverse, and the inverse as a table,
byte of the group by byte, the row and the column for each bit. -/
def Obligations.TableClosedForm : Prop :=
  (∀ r, r < 8 → ∀ c, c < 7 →
    tbl r c = 7 * ((8 * c + 7 - r) / 7) + 6 - (8 * c + 7 - r) % 7) ∧
  (∀ p, p < 56 →
    tbl (7 - (7 * (p / 7) + 6 - p % 7) % 8) ((7 * (p / 7) + 6 - p % 7) / 8) = p ∧
    tblInverse p = (7 - (7 * (p / 7) + 6 - p % 7) % 8, (7 * (p / 7) + 6 - p % 7) / 8)) ∧
  (List.range 8).map (fun k => (List.range 7).map (fun b => tblInverse (7 * k + b))) =
    [[(1, 0), (2, 0), (3, 0), (4, 0), (5, 0), (6, 0), (7, 0)],
     [(2, 1), (3, 1), (4, 1), (5, 1), (6, 1), (7, 1), (0, 0)],
     [(3, 2), (4, 2), (5, 2), (6, 2), (7, 2), (0, 1), (1, 1)],
     [(4, 3), (5, 3), (6, 3), (7, 3), (0, 2), (1, 2), (2, 2)],
     [(5, 4), (6, 4), (7, 4), (0, 3), (1, 3), (2, 3), (3, 3)],
     [(6, 5), (7, 5), (0, 4), (1, 4), (2, 4), (3, 4), (4, 4)],
     [(7, 6), (0, 5), (1, 5), (2, 5), (3, 5), (4, 5), (5, 5)],
     [(0, 6), (1, 6), (2, 6), (3, 6), (4, 6), (5, 6), (6, 6)]]

/-- `40_remap_plot.md` R84: the range of every quantity of the address computation, and that nothing wraps:
computed at the widths of R84, every quantity is the number of R82. -/
def Obligations.RemapRanges : Prop :=
  (∀ x y, x < 128 → y < 64 →
    stripeIndex y ≤ 7 ∧ rowInStripe y ≤ 7 ∧ linCol x y ≤ 1023 ∧ colGroup x y ≤ 146 ∧
    colInGroup x y ≤ 6 ∧ (colGroup x y = 146 → colInGroup x y ≤ 1) ∧
    permutedBit x y ≤ 55 ∧ permutedBit x y / 7 ≤ 7 ∧
    (colGroup x y = 146 → permutedBit x y / 7 ≤ 2) ∧
    bitOffset x y ≤ 6 ∧ 1 ≤ 1 <<< bitOffset x y ∧ 1 <<< bitOffset x y ≤ 64 ∧
    4 ≤ byteOffset x y ∧ byteOffset x y ≤ 1174 ∧
    (colGroup x y ≤ 145 → byteOffset x y ≤ 1171)) ∧
  1175 = 4 + (8192 + 6) / 7 ∧
  ∀ (x : BitVec 7) (y : BitVec 6),
    (remapWires x y).stripe.toNat = stripeIndex y.toNat ∧
    (remapWires x y).row.toNat = rowInStripe y.toNat ∧
    (remapWires x y).lin.toNat = linCol x.toNat y.toNat ∧
    (remapWires x y).group.toNat = colGroup x.toNat y.toNat ∧
    (remapWires x y).col.toNat = colInGroup x.toNat y.toNat ∧
    (remapWires x y).permuted.toNat = permutedBit x.toNat y.toNat ∧
    (remapWires x y).byteInGroup.toNat = permutedBit x.toNat y.toNat / 7 ∧
    (remapWires x y).bit.toNat = bitOffset x.toNat y.toNat ∧
    (remapWires x y).mask.toNat = 1 <<< bitOffset x.toNat y.toNat ∧
    (remapWires x y).byte.toNat = byteOffset x.toNat y.toNat

/-- `40_remap_plot.md` R83: the linear column is the stripe's three bits above the column's seven, the
row in the stripe is the row's low three bits, and the group's eight bytes start at the group number with
three zeros behind it, above the header. -/
def Obligations.RemapAsWiring : Prop :=
  ∀ (x : BitVec 7) (y : BitVec 6),
    stripeIndex y.toNat = (y.extractLsb' 3 3).toNat ∧
    rowInStripe y.toNat = (y.extractLsb' 0 3).toNat ∧
    linCol x.toNat y.toNat = (y.extractLsb' 3 3 ++ x).toNat ∧
    byteOffset x.toNat y.toNat =
      4 + (BitVec.ofNat 8 (colGroup x.toNat y.toNat) ++ 0#3).toNat + permutedBit x.toNat y.toNat / 7

/-- `40_remap_plot.md` R88: two coordinates never share a cell, and of the positions 0..6 of the data
bytes exactly bits 0..4 of `WB[1174]` are no cell. -/
def Obligations.RemapInjective : Prop :=
  (∀ x y x' y', x < 128 → y < 64 → x' < 128 → y' < 64 →
    byteOffset x y = byteOffset x' y' → bitOffset x y = bitOffset x' y' → x = x' ∧ y = y') ∧
  ∀ i b, 4 ≤ i → i < 1175 → b < 7 →
    ((∃ x y, x < 128 ∧ y < 64 ∧ byteOffset x y = i ∧ bitOffset x y = b) ↔ ¬ (i = 1174 ∧ b ≤ 4))

/-- `40_remap_plot.md` R89: which coordinates lie in the partial last group, and their 16 cells. -/
def Obligations.PartialGroup : Prop :=
  (∀ x y, x < 128 → y < 64 →
    (colGroup x y = 146 ↔ 126 ≤ x ∧ 56 ≤ y) ∧
    (colGroup x y = 146 ↔ linCol x y = 1022 ∧ colInGroup x y = 0 ∨
      linCol x y = 1023 ∧ colInGroup x y = 1)) ∧
  (List.range 8).map (fun r => permutedBit 126 (56 + r)) = [13, 0, 1, 2, 3, 4, 5, 6] ∧
  (List.range 8).map (fun r => permutedBit 127 (56 + r)) = [19, 20, 7, 8, 9, 10, 11, 12] ∧
  (List.range 8).map (fun r => (byteOffset 126 (56 + r), bitOffset 126 (56 + r))) =
    [(1173, 6), (1172, 0), (1172, 1), (1172, 2), (1172, 3), (1172, 4), (1172, 5), (1172, 6)] ∧
  (List.range 8).map (fun r => (byteOffset 127 (56 + r), bitOffset 127 (56 + r))) =
    [(1174, 5), (1174, 6), (1173, 0), (1173, 1), (1173, 2), (1173, 3), (1173, 4), (1173, 5)]

/-- `40_remap_plot.md` R94: the inverse of the address computation, and where it has no answer. -/
def Obligations.RemapInverse : Prop :=
  ∀ i b, 4 ≤ i → i ≤ 1174 → b ≤ 6 →
    (cellCoord i b = none ↔ i = 1174 ∧ b ≤ 4) ∧
    ∀ x y, cellCoord i b = some (x, y) ↔
      x < 128 ∧ y < 64 ∧ byteOffset x y = i ∧ bitOffset x y = b

/-! ### PLOT -/

/-- `40_remap_plot.md` R86: what PLOT does, in every state and for every operand: nothing to WB outside
the grid, one bit of one byte inside it. It always completes with ERR 0, and SB, TX and ESTK are not
touched (R87). That `exec` leaves the command index and the host's events alone (`SameHost`) is the
model's choice: `step` counts and takes the word (log entries 6, 2 and 1). -/
def Obligations.PlotCompletes : Prop :=
  ∀ (x y : BitVec 8) (c : Bool) (s : State), ∃ t, exec (.plot x y c) s = .next t ∧
    (if 128 ≤ x.toNat ∨ 64 ≤ y.toNat then SameWb s t
     else
      4 ≤ byteOffset x.toNat y.toNat ∧ byteOffset x.toNat y.toNat ≤ 1174 ∧
      bitOffset x.toNat y.toNat ≤ 6 ∧
      wbGet t.wb (byteOffset x.toNat y.toNat) =
        (if c then
          wbGet s.wb (byteOffset x.toNat y.toNat) ||| (1#8 <<< bitOffset x.toNat y.toNat)
         else
          wbGet s.wb (byteOffset x.toNat y.toNat) &&&
            (0xFF#8 ^^^ (1#8 <<< bitOffset x.toNat y.toNat))) ∧
      ∀ i, i ≠ byteOffset x.toNat y.toNat → wbGet t.wb i = wbGet s.wb i) ∧
    SameSb s t ∧ t.tx = s.tx ∧ EndsOk s t ∧ SameHost s t

/-- `40_remap_plot.md` R91: plots at one coordinate. After a plot inside the grid the targeted bit is `c`
and every other bit of WB is unchanged; the last of two plots wins, so a plot is idempotent; setting and
then clearing restores WB exactly when the bit was 0 before. -/
def Obligations.PlotSameCoordinate : Prop :=
  (∀ x y c wb, x < 128 → y < 64 → ∀ i j,
    (wbGet (plot x y c wb) i).getLsbD j =
      if i = byteOffset x y ∧ j = bitOffset x y then c else (wbGet wb i).getLsbD j) ∧
  (∀ x y a b wb i, wbGet (plot x y b (plot x y a wb)) i = wbGet (plot x y b wb) i) ∧
  ∀ x y wb, x < 128 → y < 64 →
    ((∀ i, wbGet (plot x y false (plot x y true wb)) i = wbGet wb i) ↔
      (wbGet wb (byteOffset x y)).getLsbD (bitOffset x y) = false)

/-- `40_remap_plot.md` R90: plots at different coordinates commute: the two orders leave the same WB. -/
def Obligations.PlotsCommute : Prop :=
  ∀ x₁ y₁ c₁ x₂ y₂ c₂ wb, (x₁, y₁) ≠ (x₂, y₂) → ∀ i,
    wbGet (plot x₂ y₂ c₂ (plot x₁ y₁ c₁ wb)) i = wbGet (plot x₁ y₁ c₁ (plot x₂ y₂ c₂ wb)) i

/-- `00_scope.md` R15: the order of the loops of ENCODE cannot be observed. For plots at pairwise
different coordinates, any two orders leave the same WB. -/
def Obligations.PlotOrderUnobservable : Prop :=
  ∀ (l l' : List (Nat × Nat × Bool)) (wb : Memory), l.Perm l' →
    (l.map (fun p => (p.1, p.2.1))).Nodup →
    ∀ i, wbGet (plotAll l wb) i = wbGet (plotAll l' wb) i

/-- `40_remap_plot.md` R92: what PLOT never does. -/
def Obligations.PlotNeverLeavesItsCell : Prop :=
  ∀ (x y : BitVec 8) (c : Bool) (s : State), ∃ t, exec (.plot x y c) s = .next t ∧
    wbHeader t.wb = wbHeader s.wb ∧
    (∀ i, (wbGet t.wb i).getLsbD 7 = (wbGet s.wb i).getLsbD 7) ∧
    (wbGet t.wb 1174).extractLsb' 0 5 = (wbGet s.wb 1174).extractLsb' 0 5 ∧
    SameSb s t ∧ t.tx = s.tx ∧ statErr t.stat = 0 ∧
    ((∀ i, 4 ≤ i → i < 1175 → (wbGet s.wb i).getLsbD 7 = false) →
      ∀ i, 4 ≤ i → i < 1175 → (wbGet t.wb i).getLsbD 7 = false)

/-! ### SBW -/

/-- `41_encode.md` R100: SBW writes one byte of SB and nothing else but ERR. No word decodes to a term
with an address of 896 or more; that this term's meaning is the rejection which `30_encoding.md` R66 case (e)
gives its word is the model's choice (log entry 4). So is that `exec` leaves the command index and the
host's events alone (`SameHost`): `step` counts and takes the word (log entries 6, 2 and 1). -/
def Obligations.SbwCompletes : Prop :=
  ∀ (addr : BitVec 10) (data : Byte) (s : State), ∃ t, exec (.sbw addr data) s = .next t ∧
    (if addr.toNat < 896 then
      sbGet t addr.toNat = data ∧ (∀ a, a ≠ addr.toNat → sbGet t a = sbGet s a) ∧
      SameWb s t ∧ t.tx = s.tx ∧ EndsOk s t ∧ SameHost s t
     else Rejected s t)

/-- `70_reset_and_hazards.md` R157 and `41_encode.md` R100: of two SBW to one address the second wins, and
two SBW to different addresses can be exchanged. That the command index and the host's events come out the
same too (`SameHost`) is the model's choice: `execAll` takes no word from the port (log entries 6, 2 and 1). -/
def Obligations.SbwOrder : Prop :=
  ∀ (a b : BitVec 10) (d e : Byte) (s : State), a.toNat < 896 → b.toNat < 896 →
    ∃ t, execAll [.sbw a d, .sbw b e] s = .next t ∧ sbGet t b.toNat = e ∧
      (a ≠ b → sbGet t a.toNat = d ∧
        ∃ u, execAll [.sbw b e, .sbw a d] s = .next u ∧ SameSb t u ∧ SameWb t u ∧
          u.tx = t.tx ∧ u.stat = t.stat ∧ SameHost t u)

/-! ### ENCODE and ENCCLR -/

/-- `41_encode.md` R105: the state after ENCODE in closed form: every cell, every bit that is no cell,
and what ENCODE leaves unchanged. That `exec` leaves the command index and the host's events alone
(`SameHost`) is the model's choice: `step` counts and takes the word (log entries 6, 2 and 1). -/
def Obligations.EncodeClosedForm : Prop :=
  ∀ s : State, ∃ t, exec .encode s = .next t ∧
    (∀ gx gy, gx < 128 → gy < 64 →
      (wbGet t.wb (byteOffset gx gy)).getLsbD (bitOffset gx gy) =
        (decide (4 ≤ gx ∧ gx ≤ 123 ∧ 4 ≤ gy ∧ gy ≤ 59) &&
          (sbGet s ((59 - gy) * 16 + (gx - 4) / 8)).getLsbD (7 - (gx - 4) % 8))) ∧
    (∀ i b, i < 1175 →
      (∀ gx gy, gx < 128 → gy < 64 → ¬ (byteOffset gx gy = i ∧ bitOffset gx gy = b)) →
      (wbGet t.wb i).getLsbD b = false) ∧
    wbHeader t.wb = [0, 0, 0, 0] ∧ (∀ i, i < 1175 → (wbGet t.wb i).getLsbD 7 = false) ∧
    (wbGet t.wb 1174).extractLsb' 0 5 = 0 ∧
    SameSb s t ∧ t.tx = s.tx ∧ EndsOk s t ∧ SameHost s t

/-- `41_encode.md` R107: the WB that ENCODE leaves depends on SB alone, and the WB that ENCCLR leaves on
nothing. -/
def Obligations.EncodeFresh : Prop :=
  (∀ s u : State, (∀ a, a < 896 → sbGet s a = sbGet u a) →
    ∃ t v, exec .encode s = .next t ∧ exec .encode u = .next v ∧
      ∀ i, i < 1175 → wbGet t.wb i = wbGet v.wb i) ∧
  ∀ s u : State, ∃ t v, exec .encclr s = .next t ∧ exec .encclr u = .next v ∧
    ∀ i, i < 1175 → wbGet t.wb i = wbGet v.wb i

/-- `41_encode.md` R108: the bytes of SB that ENCODE reads are the 840 bytes `16·j + k` with `j` in 0..55
and `k` in 0..14: these are the addresses the paint pass forms, the least is 0 and the greatest 894, each
of their bits changes the result, and no other byte does. -/
def Obligations.SourceBytesRead : Prop :=
  (∀ a, (∃ x y, x < 120 ∧ y < 56 ∧ sourceAddr x y = a) ↔ ∃ j k, j < 56 ∧ k < 15 ∧ a = 16 * j + k) ∧
  (∀ x y, x < 120 → y < 56 → sourceAddr x y ≤ 894) ∧
  sourceAddr 0 55 = 0 ∧ sourceAddr 119 0 = 894 ∧
  (∀ s u : State, (∀ j k, j < 56 → k < 15 → sbGet s (16 * j + k) = sbGet u (16 * j + k)) →
    ∃ t v, exec .encode s = .next t ∧ exec .encode u = .next v ∧
      ∀ i, i < 1175 → wbGet t.wb i = wbGet v.wb i) ∧
  ∀ (s u : State) (j k b : Nat), j < 56 → k < 15 → b < 8 →
    (sbGet s (16 * j + k)).getLsbD b ≠ (sbGet u (16 * j + k)).getLsbD b →
    ∃ t v, exec .encode s = .next t ∧ exec .encode u = .next v ∧
      ∃ i, i < 1175 ∧ wbGet t.wb i ≠ wbGet v.wb i

/-- `41_encode.md` R104: source row `j` is painted at grid row `59 − j`, source column `c` at grid column
`c + 4`. -/
def Obligations.EncodeOrientation : Prop :=
  ∀ (s : State) (j c : Nat), j < 56 → c < 120 → ∃ t, exec .encode s = .next t ∧
    (wbGet t.wb (byteOffset (c + 4) (59 - j))).getLsbD (bitOffset (c + 4) (59 - j)) =
      (sbGet s (16 * j + c / 8)).getLsbD (7 - c % 8)

/-- `41_encode.md` R109: one lit visible pixel is one bit of difference against ENCCLR, at the cell of the
painted coordinate; plotting a pixel after ENCCLR and clearing it again gives the WB of ENCCLR; and the
example of visible (0, 0). -/
def Obligations.EncodeSinglePixel : Prop :=
  (∀ (s : State) (x y : Nat), x < 120 → y < 56 →
    (∀ x' y', x' < 120 → y' < 56 →
      ((sbGet s ((55 - y') * 16 + x' / 8)).getLsbD (7 - x' % 8) = true ↔ x' = x ∧ y' = y)) →
    ∃ t u, exec .encode s = .next t ∧ exec .encclr s = .next u ∧
      ∀ i b, i < 1175 →
        ((wbGet t.wb i).getLsbD b ≠ (wbGet u.wb i).getLsbD b ↔
          i = byteOffset (x + 4) (y + 4) ∧ b = bitOffset (x + 4) (y + 4))) ∧
  (∀ (s : State) (gx gy : BitVec 8), gx.toNat < 128 → gy.toNat < 64 →
    ∃ u t, exec .encclr s = .next u ∧
      execAll [.encclr, .plot gx gy true, .plot gx gy false] s = .next t ∧ SameWb u t) ∧
  (55 - 0) * 16 + 0 / 8 = 880 ∧ 7 - 0 % 8 = 7 ∧ byteOffset 4 4 = 9 ∧ bitOffset 4 4 = 6

/-- `41_encode.md` R106: ENCCLR leaves 1175 zero bytes and an untouched SB, as ENCODE does for an all-zero
SB. That `exec` leaves the command index and the host's events alone (`SameHost`) is the model's choice:
`step` counts and takes the word (log entries 6, 2 and 1). -/
def Obligations.EncclrCompletes : Prop :=
  decode 0x03000000 = .ok .encclr ∧
  ∀ s : State, ∃ t, exec .encclr s = .next t ∧ (∀ i, i < 1175 → wbGet t.wb i = 0) ∧
    SameSb s t ∧ t.tx = s.tx ∧ EndsOk s t ∧ SameHost s t ∧
    ((∀ a, a < 896 → sbGet s a = 0) →
      ∃ u, exec .encode s = .next u ∧ ∀ i, i < 1175 → wbGet u.wb i = wbGet t.wb i)

/-- `41_encode.md` R102 and `70_reset_and_hazards.md` R163: the zero-fill clears every byte, the clear pass
changes nothing after it, and on any buffer the clear pass clears every cell and leaves the header, every
bit 7 and bits 0..4 of `WB[1174]` as they were. -/
def Obligations.ClearPassIsNotAFullClear : Prop :=
  ∀ wb : Memory,
    (∀ i, i < 1175 → wbGet (zeroFill wb) i = 0) ∧
    (∀ i, wbGet (clearPass (zeroFill wb)) i = wbGet (zeroFill wb) i) ∧
    (∀ src i, wbGet (encodeBitmap src wb) i = wbGet (paintPass src (zeroFill wb)) i) ∧
    (∀ x y, x < 128 → y < 64 →
      (wbGet (clearPass wb) (byteOffset x y)).getLsbD (bitOffset x y) = false) ∧
    (∀ i, i < 4 → wbGet (clearPass wb) i = wbGet wb i) ∧
    (∀ i, (wbGet (clearPass wb) i).getLsbD 7 = (wbGet wb i).getLsbD 7) ∧
    (wbGet (clearPass wb) 1174).extractLsb' 0 5 = (wbGet wb 1174).extractLsb' 0 5

/-- `70_reset_and_hazards.md` R160: SB is only sampled by ENCODE. SBW leaves WB alone, ENCCLR does not
clear SB, and source columns 120..127 are ignored. The first clause holds for every SBW term; that the one
with an address of 896 or more, to which no word decodes, completes as a rejection is the model's choice
(log entry 4). -/
def Obligations.SourceSampledByEncode : Prop :=
  (∀ (addr : BitVec 10) (d : Byte) (s : State), ∃ t, execAll [.encode, .sbw addr d] s = .next t ∧
    ∃ u, exec .encode s = .next u ∧ SameWb u t) ∧
  (∀ s : State, ∃ t u, execAll [.encclr, .encode] s = .next t ∧ exec .encode s = .next u ∧
    ∀ i, i < 1175 → wbGet t.wb i = wbGet u.wb i) ∧
  ∀ (addr : BitVec 10) (d : Byte) (s : State), addr.toNat < 896 → addr.toNat % 16 = 15 →
    ∃ t u, execAll [.sbw addr d, .encode] s = .next t ∧ exec .encode s = .next u ∧
      ∀ i, i < 1175 → wbGet t.wb i = wbGet u.wb i

/-! ### FRAME -/

/-- `42_frame.md` R120 to R123: FRAME overwrites the header of WB and appends the 1183-byte message, ERR
becomes 0, and SB, the data region and ESTK are unchanged. That `exec` leaves the command index and the
host's events alone (`SameHost`) is the model's choice: `step` counts and takes the word (log entries 6, 2
and 1). -/
def Obligations.FrameCompletes : Prop :=
  ∀ s : State, ∃ t m, exec .frame s = .next t ∧ t.tx = s.tx ++ m ∧ m.length = 1183 ∧
    m.take 11 = [240, 71, 127, 67, 14, 9, 23, 0, 7, 0, 127] ∧
    (∀ i, i < 1175 → m[7 + i]? = some (wbGet t.wb i)) ∧ m[1182]? = some 247 ∧
    wbHeader t.wb = [0, 7, 0, 127] ∧ (∀ i, 4 ≤ i → wbGet t.wb i = wbGet s.wb i) ∧
    SameSb s t ∧ EndsOk s t ∧ SameHost s t

/-- `42_frame.md` R126: a second FRAME appends the same message again and leaves WB as it is, and a PLOT
inside the grid between two FRAMEs changes the second message at the plotted byte only. -/
def Obligations.FrameTwice : Prop :=
  ∀ s : State, ∃ t m, exec .frame s = .next t ∧ t.tx = s.tx ++ m ∧
    wbHeader t.wb = [0, 7, 0, 127] ∧ (∀ i, 4 ≤ i → wbGet t.wb i = wbGet s.wb i) ∧
    (∃ u, exec .frame t = .next u ∧ u.tx = t.tx ++ m ∧ SameWb t u) ∧
    ∀ (x y : BitVec 8) (c : Bool), x.toNat < 128 → y.toNat < 64 →
      ∃ v u m', exec (.plot x y c) t = .next v ∧ exec .frame v = .next u ∧ u.tx = t.tx ++ m' ∧
        m'[7 + byteOffset x.toNat y.toNat]? = some (wbGet v.wb (byteOffset x.toNat y.toNat)) ∧
        ∀ k, k ≠ 7 + byteOffset x.toNat y.toNat → m'[k]? = m[k]?

/-- `42_frame.md` R125: where the data bytes of WB are 7-bit clean, so is the message between its first
and last byte. -/
def Obligations.MessageSevenBitClean : Prop :=
  ∀ s : State, (∀ i, 4 ≤ i → i < 1175 → (wbGet s.wb i).getLsbD 7 = false) →
    ∃ t m, exec .frame s = .next t ∧ t.tx = s.tx ++ m ∧ m.length = 1183 ∧
      m[0]? = some 240 ∧ m[1182]? = some 247 ∧
      ∀ k v, 1 ≤ k → k ≤ 1181 → m[k]? = some v → v.toNat < 128

/-- `42_frame.md` R124: the function `frame` on any byte sequence, and that the command FRAME, which applies
it to WB, always succeeds: `frame` answers a message, TX grows by it, and ERR is 0. -/
def Obligations.FrameOfAnyBuffer : Prop :=
  (∀ buf : List Byte, buf.length ≠ 1175 → frame buf = .error .bufferLengthViolation) ∧
  (∀ buf : List Byte, buf.length = 1175 →
    frame buf = .ok ([240, 71, 127, 67, 14] ++ [9, 23] ++ ([0, 7, 0, 127] ++ buf.drop 4) ++ [247])) ∧
  ∀ s : State, ∃ t m, exec .frame s = .next t ∧ frame (wbBytes s.wb) = .ok m ∧ t.tx = s.tx ++ m ∧
    statErr t.stat = 0

/-- `42_frame.md` R127: RENDER is ENCODE and then FRAME; it appends the message whose data region is the
encoding of SB and leaves WB equal to that encoding with the header written. -/
def Obligations.RenderSendsTheEncoding : Prop :=
  expandLine .render = some [.encode, .frame] ∧
  ∀ s : State, ∃ t u m, exec .encode s = .next t ∧ execAll [.encode, .frame] s = .next u ∧
    u.tx = s.tx ++ m ∧ m.length = 1183 ∧
    (∀ i, 4 ≤ i → i < 1175 → m[7 + i]? = some (wbGet t.wb i) ∧ wbGet u.wb i = wbGet t.wb i) ∧
    wbHeader u.wb = [0, 7, 0, 127] ∧ statErr u.stat = 0

/-- `42_frame.md` R128: RENDCLR is ENCCLR and then FRAME; it appends the clear message, whose bytes sum to
932. -/
def Obligations.RenderClearSendsTheClearMessage : Prop :=
  expandLine .rendclr = some [.encclr, .frame] ∧
  (∀ s : State, ∃ t, execAll [.encclr, .frame] s = .next t ∧
    t.tx = s.tx ++ ([240, 71, 127, 67, 14, 9, 23, 0, 7, 0, 127] ++ List.replicate 1171 0 ++ [247])) ∧
  (([240, 71, 127, 67, 14, 9, 23, 0, 7, 0, 127] ++ List.replicate 1171 0 ++ [247] : List Byte).map
    BitVec.toNat).sum = 932 ∧
  ([240, 71, 127, 67, 14, 9, 23, 0, 7, 0, 127] ++ List.replicate 1171 0 ++ [247] : List Byte).length = 1183

/-! ### Command words -/

/-- `30_encoding.md` R66: exactly which words are malformed, and that each is rejected. That `runWord` leaves
the command index and the host's events alone (`SameHost`, in `Rejected`) is the model's choice: `step`
counts and takes the word (log entries 6, 2 and 1). -/
def Obligations.MalformedWords : Prop :=
  ∀ w : CmdWord,
    ((∃ e, decode w = .error e) ↔
      (w.extractLsb' 24 8 = 0 ∨ 6 ≤ (w.extractLsb' 24 8).toNat) ∨
      ((w.extractLsb' 24 8 = 2 ∨ w.extractLsb' 24 8 = 3 ∨ w.extractLsb' 24 8 = 4) ∧
        w.extractLsb' 0 24 ≠ 0) ∨
      (w.extractLsb' 24 8 = 1 ∧ w.extractLsb' 17 7 ≠ 0) ∨
      (w.extractLsb' 24 8 = 5 ∧ w.extractLsb' 18 6 ≠ 0) ∨
      (w.extractLsb' 24 8 = 5 ∧ 896 ≤ (w.extractLsb' 8 10).toNat)) ∧
    ((∃ e, decode w = .error e) → ∀ s : State, ∃ t, runWord w s = .next t ∧ Rejected s t)

/-- `30_encoding.md` R64: the opcode map, row by row: which words are which command. -/
def Obligations.OpcodeMap : Prop :=
  ∀ w : CmdWord,
    (∀ x y c, decode w = .ok (.plot x y c) ↔
      w &&& 0xFFFE0000 = 0x01000000 ∧ x = w.extractLsb' 0 8 ∧ y = w.extractLsb' 8 8 ∧
        c = w.getLsbD 16) ∧
    (decode w = .ok .encode ↔ w &&& 0xFFFFFFFF = 0x02000000) ∧
    (decode w = .ok .encclr ↔ w &&& 0xFFFFFFFF = 0x03000000) ∧
    (decode w = .ok .frame ↔ w &&& 0xFFFFFFFF = 0x04000000) ∧
    ∀ a d, decode w = .ok (.sbw a d) ↔
      w &&& 0xFFFC0000 = 0x05000000 ∧ (w.extractLsb' 8 10).toNat < 896 ∧
        a = w.extractLsb' 8 10 ∧ d = w.extractLsb' 0 8

/-- `30_encoding.md` R67: the decode procedure, the words of its inverse, and that the two are inverse to
each other. -/
def Obligations.DecodeEncodeInverse : Prop :=
  (∀ w : CmdWord, decodeTableWord 32 w.toNat =
    if w.extractLsb' 24 8 = 0x01 ∧ w.extractLsb' 17 7 = 0 then
      some (.plot (w.extractLsb' 0 8) (w.extractLsb' 8 8) (w.getLsbD 16))
    else if w.extractLsb' 24 8 = 0x02 ∧ w.extractLsb' 0 24 = 0 then some .encode
    else if w.extractLsb' 24 8 = 0x03 ∧ w.extractLsb' 0 24 = 0 then some .encclr
    else if w.extractLsb' 24 8 = 0x04 ∧ w.extractLsb' 0 24 = 0 then some .frame
    else if w.extractLsb' 24 8 = 0x05 ∧ w.extractLsb' 18 6 = 0 ∧ (w.extractLsb' 8 10).toNat < 896 then
      some (.sbw (w.extractLsb' 8 10) (w.extractLsb' 0 8))
    else none) ∧
  (∀ (x y : BitVec 8) (c : Bool), (encodeCmd (.plot x y c)).toNat =
    0x01000000 + c.toNat * 65536 + y.toNat * 256 + x.toNat) ∧
  encodeCmd .encode = 0x02000000 ∧ encodeCmd .encclr = 0x03000000 ∧ encodeCmd .frame = 0x04000000 ∧
  (∀ (addr : BitVec 10) (data : Byte), (encodeCmd (.sbw addr data)).toNat =
    0x05000000 + addr.toNat * 256 + data.toNat) ∧
  (∀ i : Instr, i.wellFormed = true → decode (encodeCmd i) = .ok i) ∧
  ∀ (w : CmdWord) (i : Instr), decode w = .ok i → encodeCmd i = w ∧ i.wellFormed = true

/-- `95_test_vectors.md` section 2.5: words written out there, and what they decode to. -/
def Obligations.WordsOfTheSpecDecode : Prop :=
  decode 0x01000000 = .ok (.plot 0 0 false) ∧ decode 0x0101FFFF = .ok (.plot 255 255 true) ∧
  decode 0x02000000 = .ok .encode ∧ decode 0x03000000 = .ok .encclr ∧
  decode 0x04000000 = .ok .frame ∧ decode 0x05000000 = .ok (.sbw 0 0) ∧
  decode 0x05037FFF = .ok (.sbw 895 0xFF) ∧ decode 0x05037080 = .ok (.sbw 880 0x80) ∧
  decode 0x01010404 = .ok (.plot 4 4 true)

/-! ### Steps, status, and rules about every command -/

/-- `00_scope.md` R15, `10_state.md` R21: a step at a presented word that decodes runs that command, on the
state from which the word has been taken: the next event moves up and the command index grows by 1. The
list of events is the model's (log entry 2), and so is the moment of counting (log entry 6). -/
def Obligations.StepRunsTheDecodedCommand : Prop :=
  ∀ (s : State) (w : CmdWord) (rest : List HostEvent) (i : Instr),
    s.port = .command w :: rest → decode w = .ok i →
    step s = exec i { s with port := rest, ci := s.ci + 1 }

/-- `60_exceptions.md` R138: a malformed word is rejected: ERR 1, ESTK 1, and nothing else. The step takes
the word and counts it (`10_state.md` R21); the list of events is the model's (log entry 2), and so is the
moment of counting (log entry 6). -/
def Obligations.StepRejectsTheMalformedWord : Prop :=
  ∀ (s : State) (w : CmdWord) (rest : List HostEvent) (e : Malformed),
    s.port = .command w :: rest → decode w = .error e →
    ∃ t, step s = .next t ∧ Rejected { s with port := rest, ci := s.ci + 1 } t

/-- The model's choice, log entry 3: with no event to take, a step leaves the state as it is. -/
def Obligations.StepWaits : Prop := ∀ s : State, s.port = [] → step s = .next s

/-- `70_reset_and_hazards.md` R171, `60_exceptions.md` R140: every command completes, in every state, and so
does every step. That an SBW term with an address of 896 or more, to which no word decodes, completes as a
rejection is the model's choice (log entry 4), and so is that a step with no event answers a next state
(log entry 3) and that the host's events are a list (log entry 2). -/
def Obligations.EveryCommandCompletes : Prop :=
  (∀ (i : Instr) (s : State), ∃ t, exec i s = .next t) ∧ ∀ s : State, ∃ t, step s = .next t

/-- `10_state.md` R25: every word writes ERR, 0 where it executes and 1 where it is rejected, and ESTK
records a rejection and is never cleared by a word. -/
def Obligations.EveryWordWritesStatus : Prop :=
  ∀ (w : CmdWord) (s : State), ∃ t, runWord w s = .next t ∧
    (∀ i, decode w = .ok i → statErr t.stat = 0 ∧ statEstk t.stat = statEstk s.stat) ∧
    (∀ e, decode w = .error e → statErr t.stat = 1 ∧ statEstk t.stat = true)

/-- `10_state.md` R25: ESTK is cleared by reset only. That a step with no event leaves it is the model's
choice (log entry 3), and so is that the host's events are a list (log entry 2). -/
def Obligations.OnlyResetClearsEstk : Prop :=
  ∀ s t : State, step s = .next t → statEstk s.stat = true →
    (∀ rest, s.port ≠ .reset :: rest) → (∀ w rest, s.port ≠ .resetDuring w :: rest) →
    statEstk t.stat = true

/-- `10_state.md` R26: TX is append-only; FRAME appends exactly 1183 bytes, no other word touches it, and
it is empty after reset. -/
def Obligations.TxIsAppendOnly : Prop :=
  State.reset.tx = [] ∧
  ∀ (w : CmdWord) (s : State), ∃ t, runWord w s = .next t ∧
    (decode w = .ok .frame → ∃ m, m.length = 1183 ∧ t.tx = s.tx ++ m) ∧
    (decode w ≠ .ok .frame → t.tx = s.tx)

/-- `10_state.md` R23: SB is written by SBW only, and `10_state.md` R22: the header of WB by ENCODE, ENCCLR
and FRAME only. -/
def Obligations.WhoWritesWhat : Prop :=
  ∀ (w : CmdWord) (s t : State), runWord w s = .next t →
    ((∃ a, sbGet t a ≠ sbGet s a) → ∃ addr data, decode w = .ok (.sbw addr data)) ∧
    (wbHeader t.wb ≠ wbHeader s.wb →
      decode w = .ok .encode ∨ decode w = .ok .encclr ∨ decode w = .ok .frame) ∧
    (¬ SameWb s t → ∃ i, decode w = .ok i ∧ ∀ addr data, i ≠ .sbw addr data)

/-- `20_memory.md` R45: no word makes an access outside WB or SB: nothing at an index of 1175 or more, or
at an address of 896 or more, changes. -/
def Obligations.NoWriteOutsideTheSpaces : Prop :=
  ∀ (w : CmdWord) (s : State), ∃ t, runWord w s = .next t ∧
    (∀ i, 1175 ≤ i → Memory.lookup i t.wb = Memory.lookup i s.wb) ∧
    (∀ a, 896 ≤ a → Memory.lookup a t.sb = Memory.lookup a s.sb)

/-- `60_exceptions.md` R140: after a rejection the next word does what it would have done without it, but
for STAT.ESTK. -/
def Obligations.RejectionIsForgotten : Prop :=
  ∀ (w₁ w₂ : CmdWord) (e : Malformed) (s : State), decode w₁ = .error e →
    ∃ t u v, runWord w₁ s = .next t ∧ runWord w₂ t = .next u ∧ runWord w₂ s = .next v ∧
      u.wb = v.wb ∧ u.sb = v.sb ∧ u.tx = v.tx ∧ statErr u.stat = statErr v.stat ∧
      statEstk u.stat = true

/-! ### Invariants -/

/-- The invariant holds after reset (`10_state.md` R30). -/
def Obligations.ResetMeetsTheInvariant : Prop := Inv State.reset

/-- `10_state.md` R30, R25, R26 and `42_frame.md` R125: from every state that meets the invariant, whether or
not a run reaches it, a step gives a state that meets it: both memories canonical and within their
spaces, every data byte of WB 7-bit clean, the low bits of its last byte clear, its header one of two
values, STAT a value completion leaves, and TX a sequence of whole 7-bit clean messages. What a step is with
no event, and that the host's events are a list, is the model's choice (log entries 3 and 2). -/
def Obligations.StepKeepsTheInvariant : Prop :=
  ∀ s t : State, Inv s → step s = .next t → Inv t

/-! ### The assembler -/

/-- `30_encoding.md` R68, R69: what the assembler writes for each line. A line with its operands in range
is its command with those operands, whose word is the one of R67; a line with an operand outside its range
is rejected; SETPIX and CLRPIX are the PLOT lines with 1 and 0, RENDER, RENDCLR and LOADSB the sequences of
R69; and every word written decodes to the command that it was written for. That LOADSB is rejected with
any number of bytes but 896 is the model's choice (log entry 9). -/
def Obligations.AssembledWordsDecode : Prop :=
  (∀ (l : AsmLine) (is : List Instr), expandLine l = some is →
    assembleLine l = some (is.map encodeCmd) ∧
    ∀ i ∈ is, i.wellFormed = true ∧ decode (encodeCmd i) = .ok i) ∧
  (∀ (x y : BitVec 8) (c : Bool),
    expandLine (.plot x.toNat y.toNat c.toNat) = some [.plot x y c] ∧
    ∃ w : CmdWord, assembleLine (.plot x.toNat y.toNat c.toNat) = some [w] ∧
      w.toNat = 0x01000000 + c.toNat * 65536 + y.toNat * 256 + x.toNat) ∧
  (∀ x y c, 255 < x ∨ 255 < y ∨ 1 < c → expandLine (.plot x y c) = none) ∧
  (∀ (addr : BitVec 10) (data : Byte), addr.toNat < 896 →
    expandLine (.sbw addr.toNat data.toNat) = some [.sbw addr data] ∧
    ∃ w : CmdWord, assembleLine (.sbw addr.toNat data.toNat) = some [w] ∧
      w.toNat = 0x05000000 + addr.toNat * 256 + data.toNat) ∧
  (∀ addr data, 895 < addr ∨ 255 < data → expandLine (.sbw addr data) = none) ∧
  assembleLine .encode = some [0x02000000] ∧ assembleLine .encclr = some [0x03000000] ∧
  assembleLine .frame = some [0x04000000] ∧
  (∀ x y, expandLine (.setpix x y) = expandLine (.plot x y 1) ∧
    expandLine (.clrpix x y) = expandLine (.plot x y 0)) ∧
  assembleLine .render = some [0x02000000, 0x04000000] ∧
  assembleLine .rendclr = some [0x03000000, 0x04000000] ∧
  (∀ bytes : List Byte, bytes.length = 896 → ∃ is,
    expandLine (.loadsb (bytes.map BitVec.toNat)) = some is ∧ is.length = 896 ∧
    ∀ a, a < 896 → is[a]? = some (.sbw (BitVec.ofNat 10 a) (bytes.getD a 0))) ∧
  ∀ bytes : List Nat, bytes.length ≠ 896 ∨ (∃ v ∈ bytes, 255 < v) → expandLine (.loadsb bytes) = none

/-- `30_encoding.md` R69: LOADSB loads the whole source bitmap, and changes nothing else. That the command
index and the host's events are as before (`SameHost`) is the model's choice: `execAll` takes no word from
the port, so it counts none of the 896 commands (log entries 6, 2 and 1). -/
def Obligations.LoadsbLoadsTheBitmap : Prop :=
  ∀ (bytes : List Nat), bytes.length = 896 → (∀ v ∈ bytes, v ≤ 255) → ∀ s : State,
    ∃ is t, expandLine (.loadsb bytes) = some is ∧ is.length = 896 ∧ execAll is s = .next t ∧
      (∀ a, a < 896 → sbGet t a = BitVec.ofNat 8 (bytes.getD a 0)) ∧
      SameWb s t ∧ t.tx = s.tx ∧ EndsOk s t ∧ SameHost s t
end

