-- ==== Sys2Proof/Laws/State.lean ====
section
/-! SUPPORT. What each update of the state does to each field, and the fields of STAT. -/

namespace Sys2Proof.Machine

/-! ### STAT -/

@[simp] theorem statErr_statOf (e : BitVec 2) (k : Bool) : statErr (statOf e k) = e := by
  revert e k; decide

@[simp] theorem statEstk_statOf (e : BitVec 2) (k : Bool) : statEstk (statOf e k) = k := by
  revert e k; decide

@[simp] theorem statOf_fields (v : BitVec 3) : statOf (statErr v) (statEstk v) = v := by
  revert v; decide

@[simp] theorem statErr_setErr (e : BitVec 2) (v : BitVec 3) : statErr (setErr e v) = e := by
  simp [setErr]

@[simp] theorem statEstk_setErr (e : BitVec 2) (v : BitVec 3) : statEstk (setErr e v) = statEstk v := by
  simp [setErr]

/-! ### `complete` -/

@[simp] theorem complete_wb (s : State) : s.complete.wb = s.wb := rfl
@[simp] theorem complete_sb (s : State) : s.complete.sb = s.sb := rfl
@[simp] theorem complete_tx (s : State) : s.complete.tx = s.tx := rfl
@[simp] theorem complete_stat (s : State) : s.complete.stat = setErr 0 s.stat := rfl
@[simp] theorem complete_ci (s : State) : s.complete.ci = s.ci := rfl
@[simp] theorem complete_port (s : State) : s.complete.port = s.port := rfl
@[simp] theorem complete_draws (s : State) : s.complete.draws = s.draws := rfl

/-! ### `raise` -/

@[simp] theorem raise_wb (e : Err) (s : State) : (s.raise e).wb = s.wb := rfl
@[simp] theorem raise_sb (e : Err) (s : State) : (s.raise e).sb = s.sb := rfl
@[simp] theorem raise_tx (e : Err) (s : State) : (s.raise e).tx = s.tx := rfl
@[simp] theorem raise_stat (e : Err) (s : State) : (s.raise e).stat = statOf e.code true := rfl
@[simp] theorem raise_ci (e : Err) (s : State) : (s.raise e).ci = s.ci := rfl
@[simp] theorem raise_port (e : Err) (s : State) : (s.raise e).port = s.port := rfl
@[simp] theorem raise_draws (e : Err) (s : State) : (s.raise e).draws = s.draws := rfl

/-! ### `emit` -/

@[simp] theorem emit_wb (out : List Byte) (s : State) : (s.emit out).wb = s.wb := rfl
@[simp] theorem emit_sb (out : List Byte) (s : State) : (s.emit out).sb = s.sb := rfl
@[simp] theorem emit_tx (out : List Byte) (s : State) : (s.emit out).tx = s.tx ++ out := rfl
@[simp] theorem emit_stat (out : List Byte) (s : State) : (s.emit out).stat = s.stat := rfl
@[simp] theorem emit_ci (out : List Byte) (s : State) : (s.emit out).ci = s.ci := rfl
@[simp] theorem emit_port (out : List Byte) (s : State) : (s.emit out).port = s.port := rfl
@[simp] theorem emit_draws (out : List Byte) (s : State) : (s.emit out).draws = s.draws := rfl

/-! ### `sbSet` -/

@[simp] theorem sbSet_wb (s : State) (a : Nat) (v : Byte) : (sbSet s a v).wb = s.wb := rfl
@[simp] theorem sbSet_sb (s : State) (a : Nat) (v : Byte) :
    (sbSet s a v).sb = Memory.insert a v s.sb := rfl
@[simp] theorem sbSet_tx (s : State) (a : Nat) (v : Byte) : (sbSet s a v).tx = s.tx := rfl
@[simp] theorem sbSet_stat (s : State) (a : Nat) (v : Byte) : (sbSet s a v).stat = s.stat := rfl
@[simp] theorem sbSet_ci (s : State) (a : Nat) (v : Byte) : (sbSet s a v).ci = s.ci := rfl
@[simp] theorem sbSet_port (s : State) (a : Nat) (v : Byte) : (sbSet s a v).port = s.port := rfl
@[simp] theorem sbSet_draws (s : State) (a : Nat) (v : Byte) : (sbSet s a v).draws = s.draws := rfl

/-! ### `takeCommand` -/

@[simp] theorem takeCommand_wb (r : List HostEvent) (s : State) : (s.takeCommand r).wb = s.wb := rfl
@[simp] theorem takeCommand_sb (r : List HostEvent) (s : State) : (s.takeCommand r).sb = s.sb := rfl
@[simp] theorem takeCommand_tx (r : List HostEvent) (s : State) : (s.takeCommand r).tx = s.tx := rfl
@[simp] theorem takeCommand_stat (r : List HostEvent) (s : State) :
    (s.takeCommand r).stat = s.stat := rfl
@[simp] theorem takeCommand_ci (r : List HostEvent) (s : State) :
    (s.takeCommand r).ci = s.ci + 1 := rfl
@[simp] theorem takeCommand_port (r : List HostEvent) (s : State) : (s.takeCommand r).port = r := rfl
@[simp] theorem takeCommand_draws (r : List HostEvent) (s : State) :
    (s.takeCommand r).draws = s.draws := rfl

/-! ### `applyReset` -/

@[simp] theorem applyReset_wb (r : List HostEvent) (s : State) : (s.applyReset r).wb = [] := rfl
@[simp] theorem applyReset_sb (r : List HostEvent) (s : State) : (s.applyReset r).sb = [] := rfl
@[simp] theorem applyReset_tx (r : List HostEvent) (s : State) : (s.applyReset r).tx = [] := rfl
@[simp] theorem applyReset_stat (r : List HostEvent) (s : State) : (s.applyReset r).stat = 0 := rfl
@[simp] theorem applyReset_ci (r : List HostEvent) (s : State) : (s.applyReset r).ci = 0 := rfl
@[simp] theorem applyReset_port (r : List HostEvent) (s : State) : (s.applyReset r).port = r := rfl
@[simp] theorem applyReset_draws (r : List HostEvent) (s : State) :
    (s.applyReset r).draws = s.draws + 1 := rfl

/-! ### `withFetchWord` -/

@[simp] theorem withFetchWord_wb (s : State) (n w : Nat) : (s.withFetchWord n w).wb = s.wb := rfl
@[simp] theorem withFetchWord_sb (s : State) (n w : Nat) : (s.withFetchWord n w).sb = s.sb := rfl
@[simp] theorem withFetchWord_tx (s : State) (n w : Nat) : (s.withFetchWord n w).tx = s.tx := rfl
@[simp] theorem withFetchWord_stat (s : State) (n w : Nat) : (s.withFetchWord n w).stat = s.stat := rfl
@[simp] theorem withFetchWord_ci (s : State) (n w : Nat) : (s.withFetchWord n w).ci = s.ci := rfl
@[simp] theorem withFetchWord_port (s : State) (n w : Nat) :
    (s.withFetchWord n w).port = .command (tableWord n w) :: s.port := rfl
@[simp] theorem withFetchWord_draws (s : State) (n w : Nat) :
    (s.withFetchWord n w).draws = s.draws := rfl

/-! ### Reading SB looks at the bytes written and the draw only -/

@[simp] theorem sbGet_complete (s : State) : sbGet s.complete = sbGet s := rfl
@[simp] theorem sbGet_raise (e : Err) (s : State) : sbGet (s.raise e) = sbGet s := rfl
@[simp] theorem sbGet_emit (out : List Byte) (s : State) : sbGet (s.emit out) = sbGet s := rfl
@[simp] theorem sbGet_takeCommand (r : List HostEvent) (s : State) :
    sbGet (s.takeCommand r) = sbGet s := rfl

/-- Two states with the same bytes written and the same draw have the same SB. -/
theorem sbGet_congr {s t : State} (hsb : s.sb = t.sb) (hd : s.draws = t.draws) : sbGet s = sbGet t := by
  funext a; simp [sbGet, hsb, hd]

end Sys2Proof.Machine
end

