-- ==== Sys2Proof/Laws/Memory.lean ====
section
/-! SUPPORT. Reading after writing, and that every memory operation keeps the canonical form. -/

namespace Sys2Proof.Machine

/-! ### Cells -/

theorem Memory.lookup_insert (a b : Nat) (v : Byte) (m : Memory) :
    Memory.lookup b (Memory.insert a v m) = if b = a then some v else Memory.lookup b m := by
  induction m with
  | nil => rfl
  | cons cell m ih =>
    obtain ⟨c, w⟩ := cell
    simp only [Memory.insert]
    split_ifs with h1 h2 h3 h4 h5 <;> simp_all [Memory.lookup]

theorem Memory.lookup_erase (a b : Nat) (m : Memory) :
    Memory.lookup b (Memory.erase a m) = if b = a then none else Memory.lookup b m := by
  induction m with
  | nil => simp [Memory.erase, Memory.lookup]
  | cons cell m ih =>
    obtain ⟨c, w⟩ := cell
    simp only [Memory.erase, List.filter_cons] at ih ⊢
    by_cases hc : c = a <;> by_cases hb : b = c <;> simp_all [Memory.lookup]

theorem Memory.mem_insert {a : Nat} {v : Byte} {m : Memory} {cell : Host.Cell}
    (h : cell ∈ Memory.insert a v m) : cell = (a, v) ∨ cell ∈ m := by
  induction m with
  | nil => simpa [Memory.insert] using h
  | cons hd m ih =>
    obtain ⟨b, w⟩ := hd
    simp only [Memory.insert] at h
    split_ifs at h <;> simp_all only [List.mem_cons] <;> tauto

theorem Memory.pairwise_insert {a : Nat} {v : Byte} {m : Memory}
    (h : m.Pairwise (fun p q => p.1 < q.1)) :
    (Memory.insert a v m).Pairwise (fun p q => p.1 < q.1) := by
  induction m with
  | nil => simp [Memory.insert]
  | cons hd m ih =>
    obtain ⟨b, w⟩ := hd
    rw [List.pairwise_cons] at h
    simp only [Memory.insert]
    split_ifs with h1 h2
    · refine List.pairwise_cons.2 ⟨?_, List.pairwise_cons.2 h⟩
      intro q hq
      rcases List.mem_cons.1 hq with rfl | hq
      · exact h1
      · exact h1.trans (h.1 q hq)
    · subst h2; exact List.pairwise_cons.2 h
    · refine List.pairwise_cons.2 ⟨?_, ih h.2⟩
      intro q hq
      rcases Memory.mem_insert hq with rfl | hq
      · simp only; omega
      · exact h.1 q hq

theorem Memory.insert_wf {size a : Nat} {u : Option Byte} {v : Byte} {m : Memory}
    (h : Memory.wf size u m) (ha : a < size) (hv : some v ≠ u) : Memory.wf size u (Memory.insert a v m) := by
  refine ⟨Memory.pairwise_insert h.1, fun cell hc => ?_⟩
  rcases Memory.mem_insert hc with rfl | hc
  · exact ⟨ha, hv⟩
  · exact h.2 cell hc

theorem Memory.erase_wf {size a : Nat} {u : Option Byte} {m : Memory}
    (h : Memory.wf size u m) : Memory.wf size u (Memory.erase a m) :=
  ⟨h.1.filter _, fun cell hc => h.2 cell (List.mem_of_mem_filter hc)⟩

/-- A memory in canonical form lists at most one byte for an address. -/
theorem Memory.lookup_of_mem {m : Memory} (h : m.Pairwise (fun p q => p.1 < q.1))
    {a : Nat} {v : Byte} (hm : (a, v) ∈ m) : Memory.lookup a m = some v := by
  induction m with
  | nil => simp at hm
  | cons hd m ih =>
    obtain ⟨b, w⟩ := hd
    rw [List.pairwise_cons] at h
    rcases List.mem_cons.1 hm with heq | hm
    · simp_all [Memory.lookup]
    · have : b ≠ a := (h.1 _ hm).ne
      simp [Memory.lookup, this.symm, ih h.2 hm]

theorem Memory.mem_of_lookup {m : Memory} {a : Nat} {v : Byte} (h : Memory.lookup a m = some v) :
    (a, v) ∈ m := by
  induction m with
  | nil => simp [Memory.lookup] at h
  | cons hd m ih =>
    obtain ⟨b, w⟩ := hd
    simp only [Memory.lookup] at h
    split_ifs at h with hab
    · simp_all
    · exact List.mem_cons_of_mem _ (ih h)

/-- Two memories with rising addresses that list the same bytes are equal data. -/
theorem Memory.eq_of_lookup {m n : Memory} (hm : m.Pairwise (fun p q => p.1 < q.1))
    (hn : n.Pairwise (fun p q => p.1 < q.1)) (h : ∀ a, Memory.lookup a m = Memory.lookup a n) : m = n := by
  refine List.Pairwise.eq_of_mem_iff (r := fun p q : Host.Cell => p.1 < q.1) hm hn ?_
  rintro ⟨a, v⟩
  exact ⟨fun ha => Memory.mem_of_lookup ((h a) ▸ Memory.lookup_of_mem hm ha),
    fun ha => Memory.mem_of_lookup ((h a).symm ▸ Memory.lookup_of_mem hn ha)⟩

/-! ### WB -/

/-- The byte read after a write to WB: the one written, and everywhere else the old one. -/
theorem wbGet_wbSet (m : Memory) (i j : Nat) (v : Byte) :
    wbGet (wbSet m i v) j = if j = i then v else wbGet m j := by
  unfold wbGet wbSet
  by_cases hv : v = wbUnlisted <;> by_cases hj : j = i <;>
    simp [hv, hj, Memory.lookup_erase, Memory.lookup_insert]

theorem wbSet_wf {m : Memory} {i : Nat} (v : Byte) (h : Memory.wf 1175 (some wbUnlisted) m)
    (hi : i < 1175) : Memory.wf 1175 (some wbUnlisted) (wbSet m i v) := by
  unfold wbSet
  split_ifs with hv
  · exact Memory.erase_wf h
  · exact Memory.insert_wf h hi (by simpa using hv)

/-- Two canonical buffers that read the same are equal data. -/
theorem wb_ext {m n : Memory} (hm : Memory.wf 1175 (some wbUnlisted) m)
    (hn : Memory.wf 1175 (some wbUnlisted) n) (h : ∀ i, i < 1175 → wbGet m i = wbGet n i) : m = n := by
  have key : ∀ {m : Memory}, Memory.wf 1175 (some wbUnlisted) m → ∀ a,
      Memory.lookup a m = if a < 1175 ∧ wbGet m a ≠ wbUnlisted then some (wbGet m a) else none := by
    intro m hm a
    unfold wbGet
    cases hl : Memory.lookup a m with
    | none => simp
    | some v => have := hm.2 _ (Memory.mem_of_lookup hl); simp_all
  refine Memory.eq_of_lookup hm.1 hn.1 fun a => ?_
  rw [key hm, key hn]
  by_cases ha : a < 1175
  · simp [h a ha]
  · simp [ha]

@[simp] theorem wbGet_nil (i : Nat) : wbGet [] i = 0#8 := rfl

@[simp] theorem wbSet_nil_zero (i : Nat) : wbSet [] i 0#8 = [] := rfl

@[simp] theorem wbBytes_length (m : Memory) : (wbBytes m).length = 1175 := by simp [wbBytes]

theorem wbBytes_getElem (m : Memory) (i : Nat) (h : i < (wbBytes m).length) :
    (wbBytes m)[i] = wbGet m i := by simp [wbBytes]

/-! ### SB -/

/-- The byte read after a write to SB: the one written, and everywhere else the old one. -/
theorem sbGet_sbSet (s : State) (a b : Nat) (v : Byte) :
    sbGet (sbSet s a v) b = if b = a then v else sbGet s b := by
  unfold sbGet
  by_cases hb : b = a <;> simp [hb, Memory.lookup_insert]

theorem sbSet_wf {s : State} {a : Nat} (v : Byte) (h : Memory.wf 896 none s.sb) (ha : a < 896) :
    Memory.wf 896 none (sbSet s a v).sb :=
  Memory.insert_wf h ha (by simp)

theorem reset_memWf : State.reset.memWf := by decide

end Sys2Proof.Machine
end

