-- ==== Sys2Proof/Laws/PerInstr.lean ====
section
/-! SUPPORT. One lemma for each command: its word has the fixed bits of its row of the opcode map
(`30_encoding.md` R64). -/

namespace Sys2Proof.Laws.TableRow

/-- The word of a command has the row's fixed bits, operands in range or not. -/
def Statement (i : Instr) : Prop := encodeCmd i &&& rowMask i = rowMatch i

theorem plot (x y : BitVec 8) (c : Bool) : Statement (.plot x y c) := by
  simp only [Statement, encodeCmd, rowMask, rowMatch]
  ext i hi
  interval_cases i <;> cases c <;> simp

theorem encode : Statement .encode := by unfold Statement; decide

theorem encclr : Statement .encclr := by unfold Statement; decide

theorem frame : Statement .frame := by unfold Statement; decide

theorem sbw (addr : BitVec 10) (data : Byte) : Statement (.sbw addr data) := by
  simp only [Statement, encodeCmd, rowMask, rowMatch]
  ext i hi
  interval_cases i <;> simp

end Sys2Proof.Laws.TableRow
end

