-- ==== Sys2Proof/Laws/Plot.lean ====
section
/-! SUPPORT. What `plot`, the three steps of ENCODE and the header overwrite do to WB, and that each
keeps its canonical form. -/

namespace Sys2Proof.Machine

/-! ### Where `remap` lands -/

theorem tbl_lt {r c : Nat} (hr : r < 8) (hc : c < 7) : tbl r c < 56 := by
  have : ∀ r < 8, ∀ c < 7, tbl r c < 56 := by decide
  exact this r hr c hc

theorem tbl_partial_group {r c : Nat} (hr : r < 8) (hc : c < 2) : tbl r c / 7 ≤ 2 := by
  have : ∀ r < 8, ∀ c < 2, tbl r c / 7 ≤ 2 := by decide
  exact this r hr c hc

theorem linCol_lt {x y : Nat} (hx : x < 128) (hy : y < 64) : linCol x y < 1024 := by
  unfold linCol stripeIndex; omega

theorem permutedBit_lt (x y : Nat) : permutedBit x y < 56 :=
  tbl_lt (Nat.mod_lt _ (by decide)) (Nat.mod_lt _ (by decide))

theorem four_le_byteOffset (x y : Nat) : 4 ≤ byteOffset x y := by unfold byteOffset; omega

theorem byteOffset_lt {x y : Nat} (hx : x < 128) (hy : y < 64) : byteOffset x y < 1175 := by
  have hl := linCol_lt hx hy
  have hp := permutedBit_lt x y
  unfold byteOffset colGroup
  by_cases hg : linCol x y / 7 = 146
  · have : permutedBit x y / 7 ≤ 2 :=
      tbl_partial_group (Nat.mod_lt _ (by decide)) (by unfold colInGroup; omega)
    omega
  · omega

theorem bitOffset_lt (x y : Nat) : bitOffset x y < 7 := Nat.mod_lt _ (by decide)

/-! ### `plot` -/

theorem plot_outside {x y : Nat} (c : Bool) (wb : Memory) (h : 128 ≤ x ∨ 64 ≤ y) :
    plot x y c wb = wb := if_pos h

/-- Everything a plot inside the grid does: one byte gets its bit set or cleared, every other byte
keeps its value (`40_remap_plot.md` R86). -/
theorem wbGet_plot {x y : Nat} (c : Bool) (wb : Memory) (i : Nat) (hx : x < 128) (hy : y < 64) :
    wbGet (plot x y c wb) i =
      if i = byteOffset x y then
        if c then wbGet wb i ||| bitMask (bitOffset x y)
        else wbGet wb i &&& (0xFF#8 ^^^ bitMask (bitOffset x y))
      else wbGet wb i := by
  have hin : ¬ (x ≥ 128 ∨ y ≥ 64) := by omega
  unfold plot
  rw [if_neg hin]
  by_cases hi : i = byteOffset x y <;> cases c <;> simp [wbGet_wbSet, hi]

theorem plot_wf {wb : Memory} (x y : Nat) (c : Bool) (h : Memory.wf 1175 (some wbUnlisted) wb) :
    Memory.wf 1175 (some wbUnlisted) (plot x y c wb) := by
  unfold plot
  split_ifs with hin hc
  · exact h
  all_goals exact wbSet_wf _ h (byteOffset_lt (by omega) (by omega))

theorem plot_false_nil (x y : Nat) : plot x y false [] = [] := by
  unfold plot
  split_ifs <;> simp_all

/-! ### Loops -/

/-- A property that every pass of a loop keeps holds after the loop. -/
theorem foldl_keeps {α β : Type} {P : β → Prop} {f : β → α → β} (hf : ∀ m a, P m → P (f m a)) :
    ∀ (l : List α) {m : β}, P m → P (l.foldl f m)
  | [], _, h => h
  | a :: l, _, h => foldl_keeps hf l (hf _ a h)

theorem zeroFill_wf {wb : Memory} (h : Memory.wf 1175 (some wbUnlisted) wb) :
    Memory.wf 1175 (some wbUnlisted) (zeroFill wb) := by
  have key : ∀ (l : List Nat) (m : Memory), (∀ i ∈ l, i < 1175) →
      Memory.wf 1175 (some wbUnlisted) m →
      Memory.wf 1175 (some wbUnlisted) (l.foldl (fun m i => wbSet m i 0) m) := by
    intro l
    induction l with
    | nil => intro m _ hm; exact hm
    | cons i l ih =>
      intro m hl hm
      exact ih _ (fun j hj => hl j (List.mem_cons_of_mem _ hj))
        (wbSet_wf _ hm (hl i (List.mem_cons_self ..)))
  exact key _ _ (fun i hi => List.mem_range.1 hi) h

/-- What the zero-fill leaves at an index: 0 inside the buffer (`41_encode.md` R102). -/
theorem wbGet_zeroFill (wb : Memory) (j : Nat) :
    wbGet (zeroFill wb) j = if j < 1175 then 0 else wbGet wb j := by
  have key : ∀ (l : List Nat) (m : Memory),
      wbGet (l.foldl (fun m i => wbSet m i 0) m) j = if j ∈ l then 0 else wbGet m j := by
    intro l
    induction l with
    | nil => intro m; simp
    | cons i l ih =>
      intro m
      rw [List.foldl_cons, ih, wbGet_wbSet]
      by_cases h1 : j ∈ l <;> by_cases h2 : j = i <;> simp [h1, h2]
  rw [zeroFill, key]
  simp only [List.mem_range]

theorem zeroFill_nil : zeroFill [] = [] :=
  foldl_keeps (P := fun m => m = []) (fun m i h => by simp [h]) _ rfl

theorem clearRow_wf {wb : Memory} (y : Nat) (h : Memory.wf 1175 (some wbUnlisted) wb) :
    Memory.wf 1175 (some wbUnlisted) (clearRow y wb) :=
  foldl_keeps (P := Memory.wf 1175 (some wbUnlisted)) (fun _ x hm => plot_wf x y false hm) _ h

theorem clearPass_wf {wb : Memory} (h : Memory.wf 1175 (some wbUnlisted) wb) :
    Memory.wf 1175 (some wbUnlisted) (clearPass wb) :=
  foldl_keeps (P := Memory.wf 1175 (some wbUnlisted)) (fun _ y hm => clearRow_wf y hm) _ h

theorem clearPass_nil : clearPass [] = [] := by
  refine foldl_keeps (P := fun m => m = []) (fun m y h => ?_) _ rfl
  subst h
  exact foldl_keeps (P := fun m => m = []) (fun m x h => by rw [h]; exact plot_false_nil x y) _ rfl

theorem paintRow_wf {wb : Memory} (src : Nat → Byte) (y : Nat)
    (h : Memory.wf 1175 (some wbUnlisted) wb) :
    Memory.wf 1175 (some wbUnlisted) (paintRow src y wb) := by
  refine foldl_keeps (P := Memory.wf 1175 (some wbUnlisted)) (fun m x hm => ?_) _ h
  split
  · exact plot_wf _ _ _ hm
  · exact hm

theorem paintPass_wf {wb : Memory} (src : Nat → Byte) (h : Memory.wf 1175 (some wbUnlisted) wb) :
    Memory.wf 1175 (some wbUnlisted) (paintPass src wb) :=
  foldl_keeps (P := Memory.wf 1175 (some wbUnlisted)) (fun _ y hm => paintRow_wf src y hm) _ h

theorem encodeBitmap_wf {wb : Memory} (src : Nat → Byte)
    (h : Memory.wf 1175 (some wbUnlisted) wb) :
    Memory.wf 1175 (some wbUnlisted) (encodeBitmap src wb) :=
  paintPass_wf src (clearPass_wf (zeroFill_wf h))

theorem zeroFill_canonical {wb : Memory} (h : Memory.wf 1175 (some wbUnlisted) wb) :
    zeroFill wb = [] :=
  wb_ext (zeroFill_wf h) (by decide) fun i hi => by rw [wbGet_zeroFill, if_pos hi]; rfl

/-- On a canonical buffer the first two steps of ENCODE leave the empty list of cells, so that only the
paint pass is left to evaluate. -/
theorem encodeBitmap_canonical {wb : Memory} (src : Nat → Byte)
    (h : Memory.wf 1175 (some wbUnlisted) wb) : encodeBitmap src wb = paintPass src [] := by
  unfold encodeBitmap
  rw [zeroFill_canonical h, clearPass_nil]

/-! ### The header overwrite -/

/-- What the header overwrite leaves at an index (`42_frame.md` R121). -/
theorem wbGet_writeHeader (wb : Memory) (i : Nat) :
    wbGet (writeHeader wb) i =
      if i = 3 then 127 else if i = 2 then 0 else if i = 1 then 7 else if i = 0 then 0
      else wbGet wb i := by
  simp only [writeHeader, wbGet_wbSet]

theorem writeHeader_wf {wb : Memory} (h : Memory.wf 1175 (some wbUnlisted) wb) :
    Memory.wf 1175 (some wbUnlisted) (writeHeader wb) :=
  wbSet_wf _ (wbSet_wf _ (wbSet_wf _ (wbSet_wf _ h (by decide)) (by decide)) (by decide)) (by decide)

end Sys2Proof.Machine
end

