-- ==== Sys2Proof/Laws/Steps.lean ====
section
/-! SUPPORT. What `step` and `exec` answer, one equation for each case. -/

namespace Sys2Proof.Machine

theorem step_idle {s : State} (h : s.port = []) : step s = .next s := by
  unfold step; rw [h]

theorem step_command {s : State} {w : CmdWord} {rest : List HostEvent}
    (h : s.port = .command w :: rest) : step s = runWord w (s.takeCommand rest) := by
  unfold step; rw [h]

theorem step_resetEvent {s : State} {rest : List HostEvent} (h : s.port = .reset :: rest) :
    step s = .next (s.applyReset rest) := by
  unfold step; rw [h]

theorem step_resetDuring {s : State} {w : CmdWord} {rest : List HostEvent}
    (h : s.port = .resetDuring w :: rest) : step s = .next (s.applyReset rest) := by
  unfold step; rw [h]

theorem runWord_ok {w : CmdWord} {i : Instr} (s : State) (h : decode w = .ok i) :
    runWord w s = exec i s := by
  unfold runWord; rw [h]

theorem runWord_error {w : CmdWord} {e : Malformed} (s : State) (h : decode w = .error e) :
    runWord w s = .next (s.raise .malformedCommand) := by
  unfold runWord; rw [h]

theorem exec_plot (x y : BitVec 8) (c : Bool) (s : State) :
    exec (.plot x y c) s = .next ({ s with wb := plot x.toNat y.toNat c s.wb } : State).complete := rfl

theorem exec_encode (s : State) :
    exec .encode s = .next ({ s with wb := encodeBitmap (sbGet s) s.wb } : State).complete := rfl

theorem exec_encclr (s : State) :
    exec .encclr s = .next ({ s with wb := encodeBitmap (fun _ => 0) s.wb } : State).complete := rfl

theorem finishFrame_ok (msg : List Byte) (s : State) :
    finishFrame (.ok msg) s = (({ s with wb := writeHeader s.wb } : State).emit msg).complete := rfl

theorem exec_frame (s : State) :
    exec .frame s = .next (finishFrame (frame (wbBytes s.wb)) s) := rfl

theorem exec_sbw_inRange {addr : BitVec 10} (data : Byte) (s : State) (h : addr.toNat < 896) :
    exec (.sbw addr data) s = .next (sbSet s addr.toNat data).complete := by
  simp [exec, execSbw, h]

theorem exec_sbw_outOfRange {addr : BitVec 10} (data : Byte) (s : State) (h : ¬ addr.toNat < 896) :
    exec (.sbw addr data) s = .next (s.raise .malformedCommand) := by
  simp [exec, execSbw, h]

/-- FRAME's buffer has 1175 bytes, so its error branch is never taken (`42_frame.md` R124). -/
theorem frame_wbBytes (wb : Memory) :
    frame (wbBytes wb) =
      .ok (msgOpening ++ lengthField 1175 ++ (msgHeader ++ (wbBytes wb).drop 4) ++ msgTerminator) := by
  simp [frame]

/-! ### Everything a command can do

One lemma for each command, about the state it leaves as a variable: cite these rather than unfold the
meaning. -/

/-- What a command leaves that writes `m` to WB and completes. -/
theorem complete_withWb (s : State) (m : Memory) : ∃ t, ({ s with wb := m } : State).complete = t ∧
    t.wb = m ∧ t.sb = s.sb ∧ t.tx = s.tx ∧ t.stat = setErr 0 s.stat ∧ t.ci = s.ci ∧
    t.port = s.port ∧ t.draws = s.draws :=
  ⟨_, rfl, rfl, rfl, rfl, rfl, rfl, rfl, rfl⟩

/-- What a command leaves that writes `m` to WB, appends `out` to TX and completes. -/
theorem complete_emit (s : State) (m : Memory) (out : List Byte) :
    ∃ t, (({ s with wb := m } : State).emit out).complete = t ∧
    t.wb = m ∧ t.sb = s.sb ∧ t.tx = s.tx ++ out ∧ t.stat = setErr 0 s.stat ∧ t.ci = s.ci ∧
    t.port = s.port ∧ t.draws = s.draws :=
  ⟨_, rfl, rfl, rfl, rfl, rfl, rfl, rfl, rfl⟩

theorem exec_plot_next (x y : BitVec 8) (c : Bool) (s : State) : ∃ t, exec (.plot x y c) s = .next t ∧
    t.wb = plot x.toNat y.toNat c s.wb ∧ t.sb = s.sb ∧ t.tx = s.tx ∧ t.stat = setErr 0 s.stat ∧
    t.ci = s.ci ∧ t.port = s.port ∧ t.draws = s.draws :=
  ⟨_, exec_plot x y c s, rfl, rfl, rfl, rfl, rfl, rfl, rfl⟩

theorem exec_encode_next (s : State) : ∃ t, exec .encode s = .next t ∧
    t.wb = encodeBitmap (sbGet s) s.wb ∧ t.sb = s.sb ∧ t.tx = s.tx ∧ t.stat = setErr 0 s.stat ∧
    t.ci = s.ci ∧ t.port = s.port ∧ t.draws = s.draws := by
  obtain ⟨t, ht, h⟩ := complete_withWb s (encodeBitmap (sbGet s) s.wb)
  exact ⟨t, by rw [exec_encode, ht], h⟩

theorem exec_encclr_next (s : State) : ∃ t, exec .encclr s = .next t ∧
    t.wb = encodeBitmap (fun _ => 0) s.wb ∧ t.sb = s.sb ∧ t.tx = s.tx ∧ t.stat = setErr 0 s.stat ∧
    t.ci = s.ci ∧ t.port = s.port ∧ t.draws = s.draws := by
  obtain ⟨t, ht, h⟩ := complete_withWb s (encodeBitmap (fun _ => 0) s.wb)
  exact ⟨t, by rw [exec_encclr, ht], h⟩

theorem exec_sbw_next {addr : BitVec 10} (data : Byte) (s : State) (h : addr.toNat < 896) :
    ∃ t, exec (.sbw addr data) s = .next t ∧ t.wb = s.wb ∧
    t.sb = Memory.insert addr.toNat data s.sb ∧ t.tx = s.tx ∧ t.stat = setErr 0 s.stat ∧
    t.ci = s.ci ∧ t.port = s.port ∧ t.draws = s.draws :=
  ⟨_, exec_sbw_inRange data s h, rfl, rfl, rfl, rfl, rfl, rfl, rfl⟩

theorem exec_frame_next (s : State) : ∃ t, exec .frame s = .next t ∧ t.wb = writeHeader s.wb ∧
    t.sb = s.sb ∧
    t.tx = s.tx ++
      (msgOpening ++ lengthField 1175 ++ (msgHeader ++ (wbBytes s.wb).drop 4) ++ msgTerminator) ∧
    t.stat = setErr 0 s.stat ∧ t.ci = s.ci ∧ t.port = s.port ∧ t.draws = s.draws := by
  obtain ⟨t, ht, h⟩ := complete_emit s (writeHeader s.wb)
    (msgOpening ++ lengthField 1175 ++ (msgHeader ++ (wbBytes s.wb).drop 4) ++ msgTerminator)
  exact ⟨t, by rw [exec_frame, frame_wbBytes, finishFrame_ok, ht], h⟩

end Sys2Proof.Machine
end

