-- ==== Sys2Proof/Tests/Slice0.lean ====
section
/-! SUPPORT. Tests against the words and vectors of `95_test_vectors.md`, and for each obligation that has
hypotheses a state and operands that meet them. -/

namespace Sys2Proof.Tests

open Sys2Proof Sys2Proof.Machine

/-! ### States to test on -/

/-- The state after reset with WB holding `wb`. -/
def withWb (wb : Memory) : State := { State.reset with wb := wb }

/-- The state after reset with `w` presented. -/
def presented (w : CmdWord) : State := { State.reset with port := [.command w] }

/-- The bytes of SB, all 896 of them written, address `a` with `f a`. -/
def loaded (f : Nat → Byte) : Memory := (List.range 896).map (fun a => (a, f a))

/-- The state after reset with SB loaded. -/
def withSb (f : Nat → Byte) : State := { State.reset with sb := loaded f }

theorem lookup_map (f : Nat → Byte) (a : Nat) : ∀ l : List Nat, a ∈ l →
    Memory.lookup a (l.map (fun b => (b, f b))) = some (f a)
  | b :: l, h => by
    by_cases hab : a = b
    · simp [Memory.lookup, hab]
    · have hl : a ∈ l := (List.mem_cons.1 h).resolve_left hab
      simpa [Memory.lookup, hab] using lookup_map f a l hl

theorem sbGet_withSb (f : Nat → Byte) (a : Nat) (h : a < 896) : sbGet (withSb f) a = f a := by
  have hl : Memory.lookup a (loaded f) = some (f a) := by
    rw [loaded]
    exact lookup_map f a _ (List.mem_range.2 h)
  have hs : (withSb f).sb = loaded f := by rw [withSb]
  rw [sbGet, hs, hl, Option.getD_some]

/-- What a step left, where it answered a next state. -/
def after (o : Host.Outcome State Fault Refusal) : State :=
  match o with
  | .next t => t
  | _ => State.reset

/-! ### Decoding: words of `95_test_vectors.md`, sections 2.2 to 2.5 -/

/-- `PLOT 4, 4, 1`: OP 0000 0001, zeros, C 1, Y 0000 0100, X 0000 0100. -/
theorem test_decode_plot :
    decode 0b00000001000000010000010000000100 = .ok (.plot 4 4 true) := by decide

/-- V-P13: `PLOT 127, 63, 1`, where X and Y differ. -/
theorem test_decode_plot_order : decode 0x01013F7F = .ok (.plot 127 63 true) := by decide

theorem test_decode_encode : decode 0b00000010000000000000000000000000 = .ok .encode := by decide
theorem test_decode_encclr : decode 0b00000011000000000000000000000000 = .ok .encclr := by decide
theorem test_decode_frame : decode 0b00000100000000000000000000000000 = .ok .frame := by decide

/-- `SBW 880, 0x80`: OP 0000 0101, zeros, ADDR 11 0111 0000, DATA 1000 0000. -/
theorem test_decode_sbw :
    decode 0b00000101000000110111000010000000 = .ok (.sbw 880 0x80) := by decide

/-- V-E17: the highest legal address. -/
theorem test_decode_sbw_last : decode 0x05037F12 = .ok (.sbw 895 0x12) := by decide

theorem test_decode_reserved_opcodes :
    decode 0x00000000 = .error .reservedOpcode ∧ decode 0x06000000 = .error .reservedOpcode ∧
    decode 0xFFFFFFFF = .error .reservedOpcode := by decide

theorem test_decode_reserved_bits :
    decode 0x01020000 = .error .reservedBits ∧ decode 0x01800000 = .error .reservedBits ∧
    decode 0x02000001 = .error .reservedBits ∧ decode 0x04FFFFFF = .error .reservedBits ∧
    decode 0x05040000 = .error .reservedBits := by decide

theorem test_decode_sbw_out_of_range :
    decode 0x05038000 = .error .sbwAddress ∧ decode 0x0503FFFF = .error .sbwAddress := by decide

theorem test_encode_plot : encodeCmd (.plot 4 4 true) = 0x01010404 := by decide
theorem test_encode_sbw : encodeCmd (.sbw 880 0x80) = 0x05037080 := by decide

theorem test_table_word : decodeTableWord 32 0x01000AC8 = some (.plot 200 10 false) := by decide

/-! ### Well-formedness -/

/-- The one check: an SBW to address 896 is refused, and to 895 is not. -/
theorem test_illformed_sbw :
    (Instr.sbw 896 0).wellFormed = false ∧ (Instr.sbw 895 0).wellFormed = true := by decide

/-! ### The address computation: vectors V-R of `95_test_vectors.md` -/

theorem test_remap_first_cells :
    [(0, 0), (0, 1), (0, 7), (1, 0), (6, 0), (7, 0)].map (fun p => (byteOffset p.1 p.2, bitOffset p.1 p.2)) =
      [(5, 6), (4, 0), (4, 6), (6, 5), (11, 0), (13, 6)] := by decide

theorem test_remap_across_stripes :
    [(126, 0), (127, 0), (0, 8), (2, 8), (127, 7), (10, 10)].map
        (fun p => (byteOffset p.1 p.2, bitOffset p.1 p.2)) =
      [(149, 6), (150, 5), (151, 4), (153, 2), (149, 5), (162, 3)] := by decide

theorem test_remap_last_cells :
    [(64, 32), (100, 37), (125, 63), (126, 63), (127, 63), (127, 56), (127, 57)].map
        (fun p => (byteOffset p.1 p.2, bitOffset p.1 p.2)) =
      [(663, 4), (703, 1), (1170, 0), (1172, 6), (1173, 5), (1174, 5), (1174, 6)] := by decide

/-- The last cell, (127, 63), at the widths of `40_remap_plot.md` R84: the group is 146, the byte 1173, the
mask 0x20. -/
theorem test_remap_wires :
    (remapWires 127 63).lin = 1023 ∧ (remapWires 127 63).group = 146 ∧ (remapWires 127 63).permuted = 12 ∧
    (remapWires 127 63).byte = 1173 ∧ (remapWires 127 63).mask = 0x20 := by decide

/-- `40_remap_plot.md` R94 on V-R26 and on a position that is no cell (R88). -/
theorem test_remap_inverse : cellCoord 1174 5 = some (127, 56) ∧ cellCoord 1174 4 = none := by decide

/-! ### PLOT: vectors V-P -/

/-- V-P1, V-P3, V-P10, V-P11, V-P15: set and clear; the other bits of the byte are kept, bit 7 among
them. -/
theorem test_plot_inside_grid :
    (after (exec (.plot 4 4 true) State.reset)).wb = [(9, 0x40)] ∧
    (after (exec (.plot 4 4 false) (withWb [(9, 0x40)]))).wb = [] ∧
    (after (exec (.plot 127 7 true) (withWb [(149, 0x40)]))).wb = [(149, 0x60)] ∧
    (after (exec (.plot 126 0 false) (withWb [(149, 0x60)]))).wb = [(149, 0x20)] ∧
    (after (exec (.plot 4 4 true) (withWb [(9, 0x80)]))).wb = [(9, 0xC0)] ∧
    (after (exec (.plot 4 4 false) (withWb [(9, 0x80)]))).wb = [(9, 0x80)] := by decide

/-- V-P5 to V-P8: nothing outside the grid, and no error. -/
theorem test_plot_outside_grid :
    exec (.plot 128 0 true) State.reset = .next State.reset ∧
    exec (.plot 0 64 true) State.reset = .next State.reset ∧
    exec (.plot 255 255 true) State.reset = .next State.reset ∧
    exec (.plot 200 10 false) (withWb [(162, 8)]) = .next (withWb [(162, 8)]) :=
  ⟨rfl, rfl, rfl, rfl⟩

/-! ### SBW, ENCODE, ENCCLR: vectors V-E -/

/-- V-E17 and V-E16. -/
theorem test_sbw_bounds :
    (after (exec (.sbw 895 0x12) State.reset)).sb = [(895, 0x12)] ∧
    (after (step (presented 0x05038000))).sb = [] ∧
    statErr (after (step (presented 0x05038000))).stat = 1 := by decide

/-- V-E15: the last SBW to an address wins; a written 0 is a written byte. -/
theorem test_sbw_twice :
    (after (exec (.sbw 880 0) (after (exec (.sbw 880 0x80) State.reset)))).sb = [(880, 0)] := by decide

/-- Program P5: source row 0 columns 0..7 and 119, row 55 column 119, row 27 columns 64, 66, 69, 71, and
a byte of columns 120..127, which is not read. -/
def bitmapP5 (a : Nat) : Byte :=
  if a = 0 then 0xFF else if a = 14 then 0x01 else if a = 15 then 0xFF
  else if a = 894 then 0x01 else if a = 440 then 0xA5 else 0

/-- The end state of P5, less the header, whatever canonical buffer ENCODE started from. -/
theorem test_encode_bitmap {wb : Memory} (h : Memory.wf 1175 (some wbUnlisted) wb) :
    encodeBitmap bitmapP5 wb =
      [(145, 0x40), (667, 0x01), (670, 0x20), (673, 0x04), (675, 0x01), (1033, 0x20), (1034, 0x10),
       (1035, 0x08), (1036, 0x04), (1037, 0x02), (1038, 0x01), (1040, 0x40), (1041, 0x20),
       (1169, 0x20)] := by
  rw [encodeBitmap_canonical _ h]
  decide +kernel

/-- V-E3: `SB[880] = 0x80` lights grid (4, 4). -/
theorem test_encode_first_row :
    paintRow (fun a => if a = 880 then 0x80 else 0) 0 [] = [(9, 0x40)] := by decide +kernel

/-- V-E12, V-E14: ENCCLR leaves nothing of what WB held, header included. -/
theorem test_encclr_forgets {wb : Memory} (h : Memory.wf 1175 (some wbUnlisted) wb) :
    encodeBitmap (fun _ => 0) wb = [] := by
  rw [encodeBitmap_canonical _ h]
  decide +kernel

/-! ### FRAME: vectors V-F -/

/-- V-F1 and V-F5: the header of WB, and bytes of the message at the offsets of `42_frame.md` R123. -/
theorem test_frame_header :
    (after (exec .frame (withWb [(4, 1)]))).wb = [(1, 7), (3, 127), (4, 1)] ∧
    (after (exec .frame (withWb [(4, 1)]))).tx.take 13 =
      [240, 71, 127, 67, 14, 9, 23, 0, 7, 0, 127, 1, 0] := by decide +kernel

/-- V-F3 and V-F4: the message's length, a data byte, the last data byte and the terminator. -/
theorem test_frame_message :
    (after (exec .frame (withWb [(9, 0x40), (1174, 0x40)]))).tx.length = 1183 ∧
    (after (exec .frame (withWb [(9, 0x40), (1174, 0x40)]))).tx[16]? = some 0x40 ∧
    (after (exec .frame (withWb [(9, 0x40), (1174, 0x40)]))).tx.drop 1180 = [0, 0x40, 247] := by
  decide +kernel

/-! ### Steps and the port -/

/-- P4: a rejected word sets ERR and ESTK and is counted; the next command runs and keeps ESTK. -/
theorem test_rejection :
    step (presented 0x06000000) = .next { State.reset with stat := 0b101, ci := 1 } ∧
    step { State.reset with stat := 0b101, port := [.command 0x01010404] } =
      .next { State.reset with stat := 0b100, ci := 1, wb := [(9, 0x40)] } := ⟨rfl, rfl⟩

/-- A word of the table placed by `withFetchWord` is the next to run, before what was queued. -/
theorem test_fetch_word :
    step ((presented 0x06000000).withFetchWord 32 0x05037080) =
      .next { presented 0x06000000 with sb := [(880, 0x80)], ci := 1 } := rfl

/-- `70_reset_and_hazards.md` R155: reset clears the block and keeps what the host has still to do. -/
theorem test_reset_event :
    step { withWb [(9, 0x40)] with stat := 5, ci := 3, port := [.reset, .command 0x03000000] } =
      .next { presented 0x03000000 with draws := 1 } := rfl

/-! ### The assembler -/

/-- `30_encoding.md` R69, and an operand outside its range (R68). -/
theorem test_assembler :
    assembleLine (.setpix 4 4) = some [0x01010404] ∧ assembleLine .rendclr = some [0x03000000, 0x04000000] ∧
    assembleLine (.sbw 896 0) = none ∧ assembleLine (.plot 256 0 1) = none := by decide

/-- The words of `95_test_vectors.md` sections 2.2 and 2.5, where X and Y differ and where C is 0, and each
operand just outside its range (`30_encoding.md` R68). -/
theorem test_assembler_operands :
    assembleLine (.plot 127 63 1) = some [0x01013F7F] ∧ assembleLine (.clrpix 4 4) = some [0x01000404] ∧
    assembleLine (.sbw 880 0x80) = some [0x05037080] ∧ assembleLine (.plot 0 256 1) = none ∧
    assembleLine (.plot 0 0 2) = none ∧ assembleLine (.sbw 0 256) = none := by decide

/-! ### Witnesses: what meets the hypotheses of the obligations, at the ends of their ranges -/

theorem witness_ResetSignalResets :
    ({ State.reset with port := [.reset] } : State).port = .reset :: [] ∧
    ({ State.reset with port := [.resetDuring 0x02000000] } : State).port = .resetDuring 0x02000000 :: [] :=
  ⟨rfl, rfl⟩

theorem witness_TableIsBijection : 7 < 8 ∧ 6 < 7 ∧ tbl 7 6 = 42 ∧ 55 < 56 ∧ tbl 6 6 = 55 := by decide

theorem witness_TableClosedForm : tbl 0 6 = 49 ∧ 7 < 8 ∧ 6 < 7 ∧ 55 < 56 := by decide

theorem witness_RemapRanges :
    colGroup 127 63 = 146 ∧ colGroup 125 63 = 145 ∧ 127 < 128 ∧ 63 < 64 := by decide

theorem witness_RemapInjective :
    byteOffset 127 63 = byteOffset 127 63 ∧ 127 < 128 ∧ 63 < 64 ∧ 4 ≤ 1174 ∧ 1174 < 1175 ∧ 6 < 7 := by
  decide

theorem witness_PartialGroup : 126 < 128 ∧ 56 < 64 ∧ colGroup 126 56 = 146 := by decide

theorem witness_RemapInverse : 4 ≤ 4 ∧ 4 ≤ 1174 ∧ 0 ≤ 6 ∧ cellCoord 4 0 = some (0, 1) := by decide

theorem witness_PlotCompletes :
    (128 ≤ (128#8).toNat ∨ 64 ≤ (0#8).toNat) ∧ (128 ≤ (0#8).toNat ∨ 64 ≤ (64#8).toNat) ∧
    ¬ (128 ≤ (127#8).toNat ∨ 64 ≤ (63#8).toNat) := by decide

theorem witness_PlotSameCoordinate :
    127 < 128 ∧ 63 < 64 ∧ (wbGet [(1173, 0x20)] (byteOffset 127 63)).getLsbD (bitOffset 127 63) = true ∧
    (wbGet [] (byteOffset 127 63)).getLsbD (bitOffset 127 63) = false := by decide

theorem witness_PlotsCommute : ((126, 0) : Nat × Nat) ≠ (127, 7) ∧ byteOffset 126 0 = byteOffset 127 7 := by
  decide

theorem witness_PlotOrderUnobservable :
    List.Perm [(126, 0, true), (127, 7, false)] [(127, 7, false), (126, 0, true)] ∧
    ([(126, 0, true), (127, 7, false)].map (fun p : Nat × Nat × Bool => (p.1, p.2.1))).Nodup := by decide

theorem witness_PlotNeverLeavesItsCell (i : Nat) :
    (wbGet (withWb [(9, 0x40)]).wb i).getLsbD 7 = false := by
  simp only [withWb, wbGet, Memory.lookup]
  split <;> decide

theorem witness_SbwCompletes : (895#10).toNat < 896 ∧ ¬ (896#10).toNat < 896 := by decide

theorem witness_SbwOrder : (0#10).toNat < 896 ∧ (895#10).toNat < 896 ∧ (0#10) ≠ 895#10 := by decide

/-- Bit 4 of the last byte is no cell; bit 7 of no byte is one. -/
theorem witness_EncodeClosedForm {gx gy : Nat} :
    ¬ (byteOffset gx gy = 9 ∧ bitOffset gx gy = 7) ∧ 3 < 128 ∧ 59 < 64 ∧ 123 < 128 := by
  refine ⟨fun h => ?_, by decide⟩
  have := bitOffset_lt gx gy
  omega

theorem witness_EncodeFresh :
    (∀ a, a < 896 → sbGet (withWb [(9, 0x40)]) a = sbGet State.reset a) ∧
    withWb [(9, 0x40)] ≠ State.reset := ⟨fun _ _ => rfl, by decide⟩

theorem witness_SourceBytesRead :
    (∀ j k, j < 56 → k < 15 →
      sbGet { State.reset with sb := [(15, 1)] } (16 * j + k) = sbGet State.reset (16 * j + k)) ∧
    (sbGet { State.reset with sb := [(894, 1)] } (16 * 55 + 14)).getLsbD 0 ≠
      (sbGet { State.reset with sb := [(894, 0)] } (16 * 55 + 14)).getLsbD 0 := by
  refine ⟨fun j k _ hk => ?_, by decide⟩
  have : 16 * j + k ≠ 15 := by omega
  simp [sbGet, Memory.lookup, this, State.reset]

theorem witness_EncodeOrientation : 55 < 56 ∧ 119 < 120 ∧ 0 < 56 := by decide

/-- One lit pixel, at visible (0, 0), and no other. -/
theorem witness_EncodeSinglePixel :
    0 < 120 ∧ 0 < 56 ∧ ∀ x' y', x' < 120 → y' < 56 →
      ((sbGet (withSb (fun a => if a = 880 then 0x80 else 0)) ((55 - y') * 16 + x' / 8)).getLsbD
        (7 - x' % 8) = true ↔ x' = 0 ∧ y' = 0) := by
  refine ⟨by decide, by decide, fun x' y' hx hy => ?_⟩
  rw [sbGet_withSb _ _ (by omega)]
  by_cases ha : (55 - y') * 16 + x' / 8 = 880
  · have hy0 : y' = 0 := by omega
    have hx8 : x' < 8 := by omega
    subst hy0
    interval_cases x' <;> decide
  · rw [if_neg ha]
    have h0 : (0 : Byte).getLsbD (7 - x' % 8) = false := by simp
    rw [h0]
    simp only [Bool.false_eq_true, false_iff]
    omega

theorem witness_EncodeSinglePixel_plot : (127#8).toNat < 128 ∧ (63#8).toNat < 64 := by decide

theorem witness_EncclrCompletes : ∀ a, a < 896 → sbGet (withSb (fun _ => 0)) a = 0 :=
  fun a h => sbGet_withSb _ a h

theorem witness_SourceSampledByEncode :
    (15#10).toNat < 896 ∧ (15#10).toNat % 16 = 15 ∧ (895#10).toNat < 896 ∧ (895#10).toNat % 16 = 15 := by
  decide

theorem witness_FrameTwice : (127#8).toNat < 128 ∧ (57#8).toNat < 64 ∧ byteOffset 127 57 = 1174 := by decide

theorem witness_MessageSevenBitClean (i : Nat) :
    (wbGet (withWb [(4, 0x7F), (1174, 0x60)]).wb i).getLsbD 7 = false := by
  simp only [withWb, wbGet, Memory.lookup]
  split
  · decide
  · split <;> decide

theorem witness_FrameOfAnyBuffer :
    (List.replicate 1174 (0 : Byte)).length ≠ 1175 ∧ (List.replicate 1175 (0 : Byte)).length = 1175 := by
  rw [List.length_replicate, List.length_replicate]
  decide

theorem witness_MalformedWords : ∃ e, decode 0x05038000 = .error e := ⟨_, rfl⟩

theorem witness_DecodeEncodeInverse :
    (Instr.sbw 895 0xFF).wellFormed = true ∧ decode 0x05037FFF = .ok (.sbw 895 0xFF) := by decide

theorem witness_StepRunsTheDecodedCommand :
    (presented 0x02000000).port = .command 0x02000000 :: [] ∧ decode 0x02000000 = .ok .encode := by decide

theorem witness_StepRejectsTheMalformedWord :
    (presented 0x02000001).port = .command 0x02000001 :: [] ∧
    decode 0x02000001 = .error .reservedBits := by decide

theorem witness_StepWaits : State.reset.port = [] := rfl

theorem witness_EveryWordWritesStatus :
    decode 0x04000000 = .ok .frame ∧ decode 0xFFFFFFFF = .error .reservedOpcode := by decide

theorem witness_OnlyResetClearsEstk :
    statEstk ({ presented 0x01010404 with stat := 0b101 } : State).stat = true ∧
    step { presented 0x01010404 with stat := 0b101 } =
      .next { withWb [(9, 0x40)] with stat := 0b100, ci := 1 } ∧
    (∀ rest, ({ presented 0x01010404 with stat := 0b101 } : State).port ≠ .reset :: rest) ∧
    ∀ w rest, ({ presented 0x01010404 with stat := 0b101 } : State).port ≠ .resetDuring w :: rest :=
  ⟨by decide, rfl, by simp [presented], by simp [presented]⟩

theorem witness_TxIsAppendOnly :
    decode 0x04000000 = .ok .frame ∧ decode 0x02000000 ≠ .ok .frame := by decide

theorem witness_WhoWritesWhat :
    runWord 0x05037080 State.reset = .next { State.reset with sb := [(880, 0x80)] } ∧
    (∃ t, runWord 0x04000000 State.reset = .next t ∧ wbHeader t.wb ≠ wbHeader State.reset.wb) ∧
    ∃ t, runWord 0x01010404 State.reset = .next t ∧ ¬ SameWb State.reset t := by
  refine ⟨rfl, ⟨_, rfl, by decide +kernel⟩, ⟨_, rfl, fun h => ?_⟩⟩
  have := h 9
  revert this
  decide

theorem witness_NoWriteOutsideTheSpaces : 1175 ≤ 1175 ∧ 896 ≤ 896 := by decide

theorem witness_RejectionIsForgotten : decode 0x00000000 = .error .reservedOpcode := by decide

/-- A framed state with a lit pixel, a byte of SB, an error on record and a command presented. -/
def busy : State :=
  { wb := [(1, 7), (3, 127), (9, 0x40), (1174, 0x60)], sb := [(880, 0x80)], tx := [], stat := 0b101,
    ci := 4, port := [.command 0x01013F7F], draws := 2 }

theorem witness_StepKeepsTheInvariant :
    Inv busy ∧
    step busy =
      .next { busy with wb := [(1, 7), (3, 127), (9, 0x40), (1173, 0x20), (1174, 0x60)], stat := 0b100, ci := 5, port := [] } := by
  refine ⟨⟨⟨by decide, fun i h _ => ?_, by decide, by decide⟩, by decide, ?_, [], rfl, by simp⟩, rfl⟩
  · have h1 : i ≠ 1 := by omega
    have h3 : i ≠ 3 := by omega
    simp only [busy, wbGet, Memory.lookup, if_neg h1, if_neg h3]
    split
    · decide
    · split <;> decide
  · exact .inr (by decide)

theorem witness_AssembledWordsDecode :
    (∃ is, expandLine (.sbw 895 255) = some is) ∧ (255 < 256 ∨ 255 < 0 ∨ 1 < 1) ∧ (255 < 0 ∨ 255 < 0 ∨ 1 < 2) ∧
    (895#10).toNat < 896 ∧ (895 < 896 ∨ 255 < 0) ∧ (895 < 0 ∨ 255 < 256) ∧
    (List.replicate 896 (255 : Byte)).length = 896 ∧ (List.replicate 895 0).length ≠ 896 ∧
    ∃ v ∈ List.replicate 896 256, 255 < v := by
  refine ⟨⟨_, rfl⟩, by decide, by decide, by decide, by decide, by decide, List.length_replicate, ?_, 256, ?_,
    by decide⟩
  · rw [List.length_replicate]; decide
  · exact List.mem_replicate.2 ⟨by decide, rfl⟩

theorem witness_LoadsbLoadsTheBitmap :
    (List.replicate 896 255).length = 896 ∧ ∀ v ∈ List.replicate 896 255, v ≤ 255 := by
  refine ⟨List.length_replicate, fun v hv => ?_⟩
  rw [List.eq_of_mem_replicate hv]

end Sys2Proof.Tests
end

/-! ### The cell of a pixel -/

namespace Sys2Proof.Machine

/-- The inverse table finds the place of every entry (`40_remap_plot.md` R85). -/
theorem tblInverse_tbl {r c : Nat} (hr : r < 8) (hc : c < 7) : tblInverse (tbl r c) = (r, c) := by
  have table : ∀ r < 8, ∀ c < 7, tblInverse (tbl r c) = (r, c) := by decide
  exact table r hr c hc

theorem tbl_injective {r c r' c' : Nat} (hr : r < 8) (hc : c < 7) (hr' : r' < 8) (hc' : c' < 7)
    (h : tbl r c = tbl r' c') : r = r' ∧ c = c' := by
  have hinv := congrArg tblInverse h
  rw [tblInverse_tbl hr hc, tblInverse_tbl hr' hc'] at hinv
  exact Prod.mk.inj hinv

/-- `remap` is injective on the grid (`40_remap_plot.md` R88), and at rows past it too: byte and bit
determine the group and the position in it, the position determines row and column of the table, and
these the coordinate. -/
theorem remap_injective {x y x' y' : Nat} (hx : x < 128) (hx' : x' < 128)
    (hbyte : byteOffset x y = byteOffset x' y') (hbit : bitOffset x y = bitOffset x' y') :
    x = x' ∧ y = y' := by
  have hp := permutedBit_lt x y
  have hp' := permutedBit_lt x' y'
  unfold byteOffset at hbyte
  unfold bitOffset at hbit
  have hgroup : colGroup x y = colGroup x' y' := by omega
  have hperm : permutedBit x y = permutedBit x' y' := by omega
  obtain ⟨hrow, hcol⟩ : y % 8 = y' % 8 ∧ linCol x y % 7 = linCol x' y' % 7 :=
    tbl_injective (Nat.mod_lt _ (by decide)) (Nat.mod_lt _ (by decide))
      (Nat.mod_lt _ (by decide)) (Nat.mod_lt _ (by decide)) hperm
  unfold colGroup at hgroup
  have hlin : linCol x y = linCol x' y' := by omega
  unfold linCol stripeIndex at hlin
  omega

/-- Bit `j` of `WB[i]` is the cell of the coordinate `(x, y)` of the grid (`40_remap_plot.md` R88). -/
abbrev IsCell (i j x y : Nat) : Prop := x < 128 ∧ y < 64 ∧ i = byteOffset x y ∧ j = bitOffset x y

theorem IsCell.coord_unique {i j x y x' y' : Nat} (h : IsCell i j x y) (h' : IsCell i j x' y') :
    x = x' ∧ y = y' := by
  obtain ⟨hx, -, hi, hj⟩ := h
  obtain ⟨hx', -, hi', hj'⟩ := h'
  exact remap_injective hx hx' (hi.symm.trans hi') (hj.symm.trans hj')

/-! ### Plots, bit by bit -/

theorem bitMask_getLsbD {b : Nat} (hb : b < 7) (j : Nat) : (bitMask b).getLsbD j = decide (j = b) := by
  rw [bitMask, ← BitVec.twoPow_eq, BitVec.getLsbD_twoPow]
  simp [show b < 8 by omega, eq_comm]

/-- Setting a bit of a byte through its mask. -/
theorem getLsbD_or_bitMask {b : Nat} (hb : b < 7) (v : Byte) (j : Nat) :
    (v ||| bitMask b).getLsbD j = if j = b then true else v.getLsbD j := by
  rw [BitVec.getLsbD_or, bitMask_getLsbD hb]
  by_cases hj : j = b <;> simp [hj]

/-- Clearing a bit of a byte through the complement of its mask. -/
theorem getLsbD_and_compl_bitMask {b : Nat} (hb : b < 7) (v : Byte) (j : Nat) :
    (v &&& (0xFF#8 ^^^ bitMask b)).getLsbD j = if j = b then false else v.getLsbD j := by
  have hcompl : 0xFF#8 ^^^ bitMask b = ~~~ bitMask b := BitVec.allOnes_xor
  rw [hcompl, BitVec.getLsbD_and, BitVec.getLsbD_not, bitMask_getLsbD hb]
  by_cases hj : j = b
  · simp [hj]
  · simpa [hj] using BitVec.lt_of_getLsbD

/-- A plot gives the pixel's own cell the value `c` and keeps every other bit of WB
(`40_remap_plot.md` R86, R91). -/
theorem wbGet_plot_getLsbD (x y : Nat) (c : Bool) (wb : Memory) (i j : Nat) :
    (wbGet (plot x y c wb) i).getLsbD j = if IsCell i j x y then c else (wbGet wb i).getLsbD j := by
  by_cases hout : 128 ≤ x ∨ 64 ≤ y
  · have hcell : ¬ IsCell i j x y := fun ⟨hx, hy, _⟩ => by omega
    rw [plot_outside c wb hout, if_neg hcell]
  · have hx : x < 128 := by omega
    have hy : y < 64 := by omega
    have hb := bitOffset_lt x y
    rw [wbGet_plot c wb i hx hy]
    by_cases hi : i = byteOffset x y
    · cases c with
      | true => simp [hi, hx, hy, getLsbD_or_bitMask hb]
      | false => simp [hi, hx, hy, getLsbD_and_compl_bitMask hb]
    · simp [hi]

/-- What one plot of a list does to bit `j` of `WB[i]`. -/
def plotBit (i j : Nat) (b : Bool) (p : Nat × Nat × Bool) : Bool :=
  if IsCell i j p.1 p.2.1 then p.2.2 else b

/-- Each bit of WB goes its own way through a list of plots. -/
theorem wbGet_plotAll_getLsbD (l : List (Nat × Nat × Bool)) (wb : Memory) (i j : Nat) :
    (wbGet (plotAll l wb) i).getLsbD j = l.foldl (plotBit i j) ((wbGet wb i).getLsbD j) :=
  (List.foldl_hom (fun m => (wbGet m i).getLsbD j)
    (fun m p => (wbGet_plot_getLsbD p.1 p.2.1 p.2.2 m i j).symm)).symm

/-- Plots at different coordinates have different cells, so at most one of them touches a given bit
(`40_remap_plot.md` R90). -/
theorem plotBit_comm {p q : Nat × Nat × Bool} (h : (p.1, p.2.1) ≠ (q.1, q.2.1)) (i j : Nat)
    (b : Bool) :
    plotBit i j (plotBit i j b p) q = plotBit i j (plotBit i j b q) p := by
  unfold plotBit
  by_cases hp : IsCell i j p.1 p.2.1
  · have hq : ¬ IsCell i j q.1 q.2.1 := fun hq => h (Prod.ext_iff.2 (hp.coord_unique hq))
    rw [if_neg hq, if_neg hq]
  · rw [if_neg hp, if_neg hp]

/-- Settles O13: bit by bit, the plots of the list commute pairwise, so the fold does not see their
order. -/
theorem plotOrderUnobservable : Obligations.PlotOrderUnobservable := by
  unfold Obligations.PlotOrderUnobservable
  intro l l' wb hperm hnodup i
  have hcomm : ∀ p ∈ l, ∀ q ∈ l, ∀ j b,
      plotBit i j (plotBit i j b p) q = plotBit i j (plotBit i j b q) p := by
    intro p hp q hq j b
    by_cases hpq : (p.1, p.2.1) = (q.1, q.2.1)
    · rw [List.inj_on_of_nodup_map hnodup hp hq hpq]
    · exact plotBit_comm hpq i j b
  refine BitVec.eq_of_getLsbD_eq fun j _ => ?_
  rw [wbGet_plotAll_getLsbD, wbGet_plotAll_getLsbD]
  exact hperm.foldl_eq' (fun p hp q hq b => hcomm p hp q hq j b) _

/-! ### A step at a command word -/

/-- Settles O35: the step takes the word from the port, and a word that decodes runs its command. -/
theorem stepRunsTheDecodedCommand : Obligations.StepRunsTheDecodedCommand := by
  unfold Obligations.StepRunsTheDecodedCommand
  intro s w rest i hport hdec
  calc step s = runWord w (s.takeCommand rest) := step_command hport
    _ = exec i (s.takeCommand rest) := runWord_ok _ hdec
    _ = exec i { s with port := rest, ci := s.ci + 1 } := rfl

end Sys2Proof.Machine

/-! ### What no plot touches: the header, bit 7 and the low bits of the last byte -/

namespace Sys2Proof.Machine

/-- Pixels in byte 2 of the partial last group have bit 5 or 6 (`40_remap_plot.md` R89). -/
theorem tbl_last_byte {r c : Nat} (hr : r < 8) (hc : c < 2) (h : tbl r c / 7 = 2) : 5 ≤ tbl r c % 7 := by
  have table : ∀ r < 8, ∀ c < 2, tbl r c / 7 = 2 → 5 ≤ tbl r c % 7 := by decide
  exact table r hr c hc h

/-- No pixel lies in bits 4:0 of `WB[1174]` (`40_remap_plot.md` R88). -/
theorem five_le_bitOffset_of_last {x y : Nat} (hx : x < 128) (hy : y < 64)
    (h : byteOffset x y = 1174) : 5 ≤ bitOffset x y := by
  have hlin := linCol_lt hx hy
  have hperm := permutedBit_lt x y
  unfold byteOffset colGroup at h
  have hcol : colInGroup x y < 2 := by unfold colInGroup; omega
  exact tbl_last_byte (Nat.mod_lt y (by decide)) hcol (show permutedBit x y / 7 = 2 by omega)

theorem wbGet_plot_of_lt_four (x y : Nat) (c : Bool) (wb : Memory) {i : Nat} (hi : i < 4) :
    wbGet (plot x y c wb) i = wbGet wb i := by
  refine BitVec.eq_of_getLsbD_eq fun j _ => ?_
  have hcell : ¬ IsCell i j x y := fun ⟨_, _, h, _⟩ => by have := four_le_byteOffset x y; omega
  rw [wbGet_plot_getLsbD, if_neg hcell]

/-- A plot keeps the header (`40_remap_plot.md` R92). -/
@[simp] theorem wbHeader_plot (x y : Nat) (c : Bool) (wb : Memory) :
    wbHeader (plot x y c wb) = wbHeader wb := by
  simp [wbHeader, wbGet_plot_of_lt_four]

/-- A plot keeps bit 7 of every byte (`40_remap_plot.md` R92). -/
theorem wbGet_plot_bit_seven (x y : Nat) (c : Bool) (wb : Memory) (i : Nat) :
    (wbGet (plot x y c wb) i).getLsbD 7 = (wbGet wb i).getLsbD 7 := by
  have hcell : ¬ IsCell i 7 x y := fun ⟨_, _, _, h⟩ => by have := bitOffset_lt x y; omega
  rw [wbGet_plot_getLsbD, if_neg hcell]

/-- A plot keeps `WB[1174][4:0]` (`40_remap_plot.md` R92). -/
theorem wbGet_plot_last_low (x y : Nat) (c : Bool) (wb : Memory) :
    (wbGet (plot x y c wb) 1174).extractLsb' 0 5 = (wbGet wb 1174).extractLsb' 0 5 := by
  refine BitVec.eq_of_getLsbD_eq fun j hj => ?_
  have hcell : ¬ IsCell 1174 j x y := fun ⟨hx, hy, hbyte, hbit⟩ => by
    have := five_le_bitOffset_of_last hx hy hbyte.symm
    omega
  simp [BitVec.getLsbD_extractLsb', wbGet_plot_getLsbD, hcell]

/-! ### What each operation on WB, STAT and TX does to its invariant -/

theorem WbInv.nil : WbInv [] where
  canonical := by decide
  sevenBitClean _ _ _ := by simp
  lastByteLow := by simp
  header := .inl rfl

theorem WbInv.plot {wb : Memory} (h : WbInv wb) (x y : Nat) (c : Bool) :
    WbInv (Machine.plot x y c wb) where
  canonical := plot_wf x y c h.canonical
  sevenBitClean i hlo hhi := by rw [wbGet_plot_bit_seven]; exact h.sevenBitClean i hlo hhi
  lastByteLow := by rw [wbGet_plot_last_low]; exact h.lastByteLow
  header := by rw [wbHeader_plot]; exact h.header

/-- The paint pass consists of plots (`41_encode.md` R103): it keeps what every plot keeps. -/
theorem paintPass_keeps {P : Memory → Prop} (src : Nat → Byte)
    (hplot : ∀ m x y, P m → P (plot x y true m)) {wb : Memory} (h : P wb) : P (paintPass src wb) := by
  refine foldl_keeps (fun m y hm => ?_) _ h
  refine foldl_keeps (fun m x hm => ?_) _ hm
  split
  · exact hplot m _ _ hm
  · exact hm

/-- ENCODE starts from nothing: the first two steps leave a canonical buffer empty. -/
theorem WbInv.encodeBitmap {wb : Memory} (h : WbInv wb) (src : Nat → Byte) :
    WbInv (Machine.encodeBitmap src wb) := by
  rw [encodeBitmap_canonical src h.canonical]
  exact paintPass_keeps src (fun _ x y hm => hm.plot x y true) .nil

theorem wbGet_writeHeader_of_four_le (wb : Memory) {i : Nat} (h : 4 ≤ i) :
    wbGet (writeHeader wb) i = wbGet wb i := by
  rw [wbGet_writeHeader, if_neg (by omega), if_neg (by omega), if_neg (by omega), if_neg (by omega)]

theorem WbInv.writeHeader {wb : Memory} (h : WbInv wb) : WbInv (Machine.writeHeader wb) where
  canonical := writeHeader_wf h.canonical
  sevenBitClean i hlo hhi := by
    rw [wbGet_writeHeader_of_four_le wb hlo]; exact h.sevenBitClean i hlo hhi
  lastByteLow := by rw [wbGet_writeHeader_of_four_le wb (by decide)]; exact h.lastByteLow
  header := .inr (by simp [wbHeader, wbGet_writeHeader])

theorem statInv_setErr_zero (stat : BitVec 3) : StatInv (setErr 0 stat) := .inl (statErr_setErr 0 stat)

theorem statInv_malformedCommand : StatInv (statOf Err.malformedCommand.code true) := by
  right
  simp [Err.code]

theorem TxInv.nil : TxInv [] := ⟨[], rfl, by simp⟩

theorem TxInv.append {tx m : List Byte} (h : TxInv tx) (hm : IsMessage m) : TxInv (tx ++ m) := by
  obtain ⟨msgs, rfl, hmsgs⟩ := h
  refine ⟨msgs ++ [m], by simp, fun m' hm' => ?_⟩
  rcases List.mem_append.1 hm' with hold | hnew
  · exact hmsgs m' hold
  · rwa [List.mem_singleton.1 hnew]

/-- The message that FRAME appends (`42_frame.md` R123), as `frame_wbBytes` computes it. -/
def frameMessage (wb : Memory) : List Byte :=
  msgOpening ++ lengthField 1175 ++ (msgHeader ++ (wbBytes wb).drop 4) ++ msgTerminator

@[simp] theorem frameMessage_length (wb : Memory) : (frameMessage wb).length = 1183 := by
  simp [frameMessage, msgOpening, lengthField, msgHeader, msgTerminator]

/-- A byte of the data region of WB is 7-bit clean (`10_state.md` R30). -/
theorem WbInv.data_clean {wb : Memory} (h : WbInv wb) {v : Byte} (hv : v ∈ (wbBytes wb).drop 4) :
    v.getLsbD 7 = false := by
  obtain ⟨k, hk, rfl⟩ := List.mem_iff_getElem.1 hv
  rw [List.length_drop, wbBytes_length] at hk
  rw [List.getElem_drop, wbBytes_getElem]
  exact h.sevenBitClean (4 + k) (by omega) (by omega)

theorem WbInv.isMessage {wb : Memory} (h : WbInv wb) : IsMessage (frameMessage wb) :=
  ⟨(wbBytes wb).drop 4, by simp, fun _ hv => h.data_clean hv, rfl⟩

/-! ### What a word can do, said once -/

/-- WB after command `i`. -/
def wbAfter (i : Instr) (s : State) : Memory :=
  match i with
  | .plot x y c => plot x.toNat y.toNat c s.wb
  | .encode => encodeBitmap (sbGet s) s.wb
  | .encclr => encodeBitmap (fun _ => 0) s.wb
  | .frame => writeHeader s.wb
  | .sbw _ _ => s.wb

/-- The bytes of SB listed after command `i`. -/
def sbAfter (i : Instr) (s : State) : Memory :=
  match i with
  | .sbw addr data => Memory.insert addr.toNat data s.sb
  | _ => s.sb

/-- TX after command `i`. -/
def txAfter (i : Instr) (s : State) : List Byte :=
  match i with
  | .frame => s.tx ++ frameMessage s.wb
  | _ => s.tx

/-- Command `i` has taken `s` to `t`: every field of `t`. -/
structure Executed (i : Instr) (s t : State) : Prop where
  wb : t.wb = wbAfter i s
  sb : t.sb = sbAfter i s
  tx : t.tx = txAfter i s
  stat : t.stat = setErr 0 s.stat
  host : SameHost s t

/-- The field by field form, in which the `exec_…_next` lemmas state it. -/
theorem Executed.of_fields {i : Instr} {s : State}
    (h : ∃ t, exec i s = .next t ∧ t.wb = wbAfter i s ∧ t.sb = sbAfter i s ∧ t.tx = txAfter i s ∧
      t.stat = setErr 0 s.stat ∧ SameHost s t) :
    ∃ t, exec i s = .next t ∧ Executed i s t := by
  obtain ⟨t, ht, hwb, hsb, htx, hstat, hhost⟩ := h
  exact ⟨t, ht, hwb, hsb, htx, hstat, hhost⟩

/-- Every well-formed command executes. -/
theorem exec_wellFormed {i : Instr} (hwf : i.wellFormed = true) (s : State) :
    ∃ t, exec i s = .next t ∧ Executed i s t := by
  cases i with
  | plot x y c => exact Executed.of_fields (exec_plot_next x y c s)
  | encode => exact Executed.of_fields (exec_encode_next s)
  | encclr => exact Executed.of_fields (exec_encclr_next s)
  | frame => exact Executed.of_fields (exec_frame_next s)
  | sbw addr data =>
    have hrange : addr.toNat < 896 := by simpa [Instr.wellFormed] using hwf
    exact Executed.of_fields (exec_sbw_next data s hrange)

theorem decodeN_wellFormed {w : CmdWord} {i j : Instr} (hj : j.wellFormed = true)
    (h : decodeN w j = .ok i) : i.wellFormed = true := by
  unfold decodeN at h
  split_ifs at h
  cases h
  exact hj

theorem decodeP_wellFormed {w : CmdWord} {i : Instr} (h : decodeP w = .ok i) :
    i.wellFormed = true := by
  unfold decodeP at h
  split_ifs at h
  cases h
  rfl

theorem decodeS_wellFormed {w : CmdWord} {i : Instr} (h : decodeS w = .ok i) :
    i.wellFormed = true := by
  unfold decodeS at h
  split_ifs at h with _ hrange
  cases h
  simpa [Instr.wellFormed] using hrange

/-- Decode answers well-formed commands only (`30_encoding.md` R66, case (e)). -/
theorem decode_wellFormed {w : CmdWord} {i : Instr} (h : decode w = .ok i) :
    i.wellFormed = true := by
  unfold decode at h
  split_ifs at h
  · exact decodeP_wellFormed h
  · exact decodeN_wellFormed rfl h
  · exact decodeN_wellFormed rfl h
  · exact decodeN_wellFormed rfl h
  · exact decodeS_wellFormed h

theorem runWord_next (w : CmdWord) (s : State) : ∃ t, runWord w s = .next t := by
  cases hdec : decode w with
  | error e => exact ⟨_, runWord_error s hdec⟩
  | ok i =>
    obtain ⟨t, ht, -⟩ := exec_wellFormed (decode_wellFormed hdec) s
    exact ⟨t, (runWord_ok s hdec).trans ht⟩

/-- A word is rejected, or its command executes (`60_exceptions.md` R138). -/
theorem runWord_cases {w : CmdWord} {s t : State} (h : runWord w s = .next t) :
    (∃ e, decode w = .error e ∧ t = s.raise .malformedCommand) ∨
      ∃ i, decode w = .ok i ∧ Executed i s t := by
  cases hdec : decode w with
  | error e =>
    rw [runWord_error s hdec] at h
    exact .inl ⟨e, rfl, (Host.Outcome.next.inj h).symm⟩
  | ok i =>
    obtain ⟨t', ht', hex⟩ := exec_wellFormed (decode_wellFormed hdec) s
    rw [runWord_ok s hdec, ht'] at h
    exact .inr ⟨i, rfl, Host.Outcome.next.inj h ▸ hex⟩

/-- A step waits, runs a word, or takes a reset (`70_reset_and_hazards.md` R166). -/
theorem step_cases {s t : State} (h : step s = .next t) :
    t = s ∨
    (∃ w rest, s.port = .command w :: rest ∧ runWord w (s.takeCommand rest) = .next t) ∨
    (∃ rest, (s.port = .reset :: rest ∨ ∃ w, s.port = .resetDuring w :: rest) ∧
      t = s.applyReset rest) := by
  match hport : s.port with
  | [] =>
    rw [step_idle hport] at h
    exact .inl (Host.Outcome.next.inj h).symm
  | .command w :: rest =>
    rw [step_command hport] at h
    exact .inr (.inl ⟨w, rest, rfl, h⟩)
  | .reset :: rest =>
    rw [step_resetEvent hport] at h
    exact .inr (.inr ⟨rest, .inl rfl, (Host.Outcome.next.inj h).symm⟩)
  | .resetDuring w :: rest =>
    rw [step_resetDuring hport] at h
    exact .inr (.inr ⟨rest, .inr ⟨w, rfl⟩, (Host.Outcome.next.inj h).symm⟩)

/-! ### Every step keeps the invariant -/

/-- Settles O45: both memories and TX are empty and STAT is 0. -/
theorem resetMeetsTheInvariant : Obligations.ResetMeetsTheInvariant where
  wb := .nil
  sb := reset_memWf.2
  stat := .inl rfl
  tx := .nil

/-- Reset makes the invariant: it leaves WB, SB, TX and STAT as `State.reset` has them. -/
theorem Inv.applyReset (s : State) (rest : List HostEvent) : Inv (s.applyReset rest) :=
  ⟨resetMeetsTheInvariant.wb, resetMeetsTheInvariant.sb, resetMeetsTheInvariant.stat,
    resetMeetsTheInvariant.tx⟩

theorem Inv.takeCommand {s : State} (h : Inv s) (rest : List HostEvent) : Inv (s.takeCommand rest) :=
  ⟨h.wb, h.sb, h.stat, h.tx⟩

theorem Inv.raise {s : State} (h : Inv s) : Inv (s.raise .malformedCommand) :=
  ⟨h.wb, h.sb, statInv_malformedCommand, h.tx⟩

theorem Inv.wbAfter {s : State} (h : Inv s) (i : Instr) : WbInv (Machine.wbAfter i s) := by
  cases i with
  | plot x y c => exact h.wb.plot _ _ c
  | encode => exact h.wb.encodeBitmap _
  | encclr => exact h.wb.encodeBitmap _
  | frame => exact h.wb.writeHeader
  | sbw addr data => exact h.wb

theorem Inv.sbAfter {s : State} (h : Inv s) {i : Instr} (hwf : i.wellFormed = true) :
    Memory.wf 896 none (Machine.sbAfter i s) := by
  cases i with
  | sbw addr data => exact Memory.insert_wf h.sb (by simpa [Instr.wellFormed] using hwf) (by simp)
  | _ => exact h.sb

theorem Inv.txAfter {s : State} (h : Inv s) (i : Instr) : TxInv (Machine.txAfter i s) := by
  cases i with
  | frame => exact h.tx.append h.wb.isMessage
  | _ => exact h.tx

theorem Inv.runWord {w : CmdWord} {s t : State} (h : Inv s) (hrun : Machine.runWord w s = .next t) :
    Inv t := by
  obtain ⟨e, -, rfl⟩ | ⟨i, hdec, hex⟩ := runWord_cases hrun
  · exact h.raise
  · constructor
    · rw [hex.wb]; exact h.wbAfter i
    · rw [hex.sb]; exact h.sbAfter (decode_wellFormed hdec)
    · rw [hex.stat]; exact statInv_setErr_zero s.stat
    · rw [hex.tx]; exact h.txAfter i

/-- Settles O46: a waiting step changes nothing, a word keeps the invariant, and a reset makes it. -/
theorem stepKeepsTheInvariant : Obligations.StepKeepsTheInvariant := by
  unfold Obligations.StepKeepsTheInvariant
  intro s t hinv hstep
  obtain rfl | ⟨w, rest, -, hrun⟩ | ⟨rest, -, rfl⟩ := step_cases hstep
  · exact hinv
  · exact (hinv.takeCommand rest).runWord hrun
  · exact .applyReset s rest

/-! ### STAT -/

/-- Settles O39: a rejected word raises, and an executed one completes. -/
theorem everyWordWritesStatus : Obligations.EveryWordWritesStatus := by
  unfold Obligations.EveryWordWritesStatus
  intro w s
  obtain ⟨t, ht⟩ := runWord_next w s
  refine ⟨t, ht, ?_⟩
  obtain ⟨e, hdec, rfl⟩ | ⟨i, hdec, hex⟩ := runWord_cases ht
  · simp [hdec, Err.code]
  · simp [hdec, hex.stat]

/-- No word clears ESTK (`10_state.md` R25). -/
theorem runWord_keeps_estk {w : CmdWord} {s t : State} (h : runWord w s = .next t)
    (hs : statEstk s.stat = true) : statEstk t.stat = true := by
  obtain ⟨e, -, rfl⟩ | ⟨i, -, hex⟩ := runWord_cases h
  · simp
  · simpa [hex.stat] using hs

/-- Settles O40: without a reset event a step waits or runs a word. -/
theorem onlyResetClearsEstk : Obligations.OnlyResetClearsEstk := by
  unfold Obligations.OnlyResetClearsEstk
  intro s t hstep hs hnoReset hnoResetDuring
  obtain rfl | ⟨w, rest, -, hrun⟩ | ⟨rest, hport | ⟨w, hport⟩, -⟩ := step_cases hstep
  · exact hs
  · exact runWord_keeps_estk hrun hs
  · exact absurd hport (hnoReset rest)
  · exact absurd hport (hnoResetDuring w rest)

/-! ### TX, SB and the header -/

theorem txAfter_of_ne_frame {i : Instr} (hi : i ≠ .frame) (s : State) : txAfter i s = s.tx := by
  cases i with
  | frame => exact absurd rfl hi
  | _ => rfl

/-- Settles O41: FRAME appends its message, and every other word leaves TX. -/
theorem txIsAppendOnly : Obligations.TxIsAppendOnly := by
  unfold Obligations.TxIsAppendOnly
  refine ⟨rfl, fun w s => ?_⟩
  obtain ⟨t, ht⟩ := runWord_next w s
  refine ⟨t, ht, ?_⟩
  obtain ⟨e, hdec, rfl⟩ | ⟨i, hdec, hex⟩ := runWord_cases ht
  · simp [hdec]
  · rw [hdec, hex.tx]
    constructor
    · intro hframe
      cases hframe
      exact ⟨frameMessage s.wb, frameMessage_length s.wb, rfl⟩
    · intro hne
      exact txAfter_of_ne_frame (fun hi => hne (hi ▸ rfl)) s

/-- Only SBW writes SB (`10_state.md` R23). -/
theorem Executed.sbGet_eq {i : Instr} {s t : State} (h : Executed i s t)
    (hi : ∀ addr data, i ≠ .sbw addr data) : sbGet t = sbGet s := by
  obtain ⟨-, -, hdraws⟩ := h.host
  have hsb : sbAfter i s = s.sb := by
    cases i with
    | sbw addr data => exact absurd rfl (hi addr data)
    | _ => rfl
  exact sbGet_congr (h.sb.trans hsb) hdraws

/-- Only ENCODE, ENCCLR and FRAME write the header of WB (`10_state.md` R22). -/
theorem Executed.writes_header {i : Instr} {s t : State} (h : Executed i s t)
    (hne : wbHeader t.wb ≠ wbHeader s.wb) : i = .encode ∨ i = .encclr ∨ i = .frame := by
  rw [h.wb] at hne
  cases i with
  | plot x y c => exact absurd (wbHeader_plot x.toNat y.toNat c s.wb) hne
  | sbw addr data => exact absurd rfl hne
  | encode => simp
  | encclr => simp
  | frame => simp

theorem Executed.sameWb_of_sbw {addr : BitVec 10} {data : Byte} {s t : State}
    (h : Executed (.sbw addr data) s t) : SameWb s t := fun j => congrArg (wbGet · j) h.wb

/-- Settles O42: a rejected word writes neither memory, and a command only what it is for. -/
theorem whoWritesWhat : Obligations.WhoWritesWhat := by
  unfold Obligations.WhoWritesWhat
  intro w s t hrun
  obtain ⟨e, -, rfl⟩ | ⟨i, hdec, hex⟩ := runWord_cases hrun
  · simp [SameWb]
  · rw [hdec]
    refine ⟨fun ⟨a, ha⟩ => ?_, fun hne => ?_, fun hne => ⟨i, rfl, ?_⟩⟩
    · by_contra hno
      have hi : ∀ addr data, i ≠ .sbw addr data := fun addr data hi => hno ⟨addr, data, hi ▸ rfl⟩
      exact ha (congrFun (hex.sbGet_eq hi) a)
    · simpa using hex.writes_header hne
    · rintro addr data rfl
      exact hne hex.sameWb_of_sbw

end Sys2Proof.Machine

/-! ### What no word reaches: past the ends of WB and SB -/

namespace Sys2Proof.Machine

/-- A write to WB leaves what is listed at every other index. -/
theorem lookup_wbSet_ne (m : Memory) {i j : Nat} (v : Byte) (h : j ≠ i) :
    Memory.lookup j (wbSet m i v) = Memory.lookup j m := by
  unfold wbSet
  split_ifs
  · rw [Memory.lookup_erase, if_neg h]
  · rw [Memory.lookup_insert, if_neg h]

/-- A plot writes the byte of a cell, which lies in the buffer (`40_remap_plot.md` R84). -/
theorem lookup_plot_beyond (x y : Nat) (c : Bool) (wb : Memory) {j : Nat} (hj : 1175 ≤ j) :
    Memory.lookup j (plot x y c wb) = Memory.lookup j wb := by
  unfold plot
  split_ifs with hout hc
  · rfl
  all_goals
    have hbyte : byteOffset x y < 1175 := byteOffset_lt (by omega) (by omega)
    exact lookup_wbSet_ne wb _ (by omega)

theorem lookup_zeroFill_beyond (wb : Memory) {j : Nat} (hj : 1175 ≤ j) :
    Memory.lookup j (zeroFill wb) = Memory.lookup j wb := by
  refine List.foldlRecOn (motive := fun m => Memory.lookup j m = Memory.lookup j wb) _ _ rfl
    fun m hm i hi => ?_
  have hlt : i < 1175 := List.mem_range.1 hi
  exact (lookup_wbSet_ne m 0 (by omega)).trans hm

/-- The clear pass consists of plots (`41_encode.md` R101): it keeps what every plot keeps. -/
theorem clearPass_keeps {P : Memory → Prop} (hplot : ∀ m x y, P m → P (plot x y false m))
    {wb : Memory} (h : P wb) : P (clearPass wb) :=
  foldl_keeps (fun _ y hm => foldl_keeps (fun m x hm => hplot m x y hm) _ hm) _ h

theorem lookup_encodeBitmap_beyond (src : Nat → Byte) (wb : Memory) {j : Nat} (hj : 1175 ≤ j) :
    Memory.lookup j (encodeBitmap src wb) = Memory.lookup j wb := by
  have hplot (c : Bool) (m : Memory) (x y : Nat) (hm : Memory.lookup j m = Memory.lookup j wb) :
      Memory.lookup j (plot x y c m) = Memory.lookup j wb :=
    (lookup_plot_beyond x y c m hj).trans hm
  exact paintPass_keeps src (P := fun m => Memory.lookup j m = Memory.lookup j wb) (hplot true)
    (clearPass_keeps (P := fun m => Memory.lookup j m = Memory.lookup j wb) (hplot false)
      (lookup_zeroFill_beyond wb hj))

/-- The header overwrite writes indices 0 to 3 (`42_frame.md` R121). -/
theorem lookup_writeHeader_of_four_le (wb : Memory) {j : Nat} (hj : 4 ≤ j) :
    Memory.lookup j (writeHeader wb) = Memory.lookup j wb := by
  unfold writeHeader
  iterate 4 rw [lookup_wbSet_ne _ _ (by omega)]

/-- No command reaches an index past the end of WB (`20_memory.md` R45). -/
theorem lookup_wbAfter_beyond (i : Instr) (s : State) {j : Nat} (hj : 1175 ≤ j) :
    Memory.lookup j (wbAfter i s) = Memory.lookup j s.wb := by
  cases i with
  | plot x y c => exact lookup_plot_beyond _ _ c s.wb hj
  | encode => exact lookup_encodeBitmap_beyond _ s.wb hj
  | encclr => exact lookup_encodeBitmap_beyond _ s.wb hj
  | frame => exact lookup_writeHeader_of_four_le s.wb (by omega)
  | sbw addr data => rfl

/-- No well-formed command reaches an address past the end of SB (`20_memory.md` R45). -/
theorem lookup_sbAfter_beyond {i : Instr} (hwf : i.wellFormed = true) (s : State) {a : Nat}
    (ha : 896 ≤ a) : Memory.lookup a (sbAfter i s) = Memory.lookup a s.sb := by
  cases i with
  | sbw addr data =>
    have hrange : addr.toNat < 896 := by simpa [Instr.wellFormed] using hwf
    exact (Memory.lookup_insert ..).trans (if_neg (by omega))
  | _ => rfl

/-- Settles O43: a rejected word writes neither memory, and a command that a word decodes to is
well-formed, so what it writes lies within its space. -/
theorem noWriteOutsideTheSpaces : Obligations.NoWriteOutsideTheSpaces := by
  unfold Obligations.NoWriteOutsideTheSpaces
  intro w s
  obtain ⟨t, ht⟩ := runWord_next w s
  refine ⟨t, ht, ?_⟩
  obtain ⟨e, -, rfl⟩ | ⟨i, hdec, hex⟩ := runWord_cases ht
  · exact ⟨fun _ _ => rfl, fun _ _ => rfl⟩
  · rw [hex.wb, hex.sb]
    exact ⟨fun _ hj => lookup_wbAfter_beyond i s hj,
      fun _ ha => lookup_sbAfter_beyond (decode_wellFormed hdec) s ha⟩

end Sys2Proof.Machine

namespace Sys2Proof.Machine

/-! ### The fields of a command word, as numbers -/

theorem eq_field_iff (w : CmdWord) (lo : Nat) {n : Nat} (v : BitVec n) :
    v = w.extractLsb' lo n ↔ v.toNat = w.toNat / 2 ^ lo % 2 ^ n := by
  rw [BitVec.toNat_eq, BitVec.extractLsb'_toNat, Nat.shiftRight_eq_div_pow]

theorem field_eq_zero_iff (w : CmdWord) (lo n : Nat) :
    w.extractLsb' lo n = 0#n ↔ w.toNat / 2 ^ lo % 2 ^ n = 0 := by
  rw [eq_comm, eq_field_iff, eq_comm]
  simp

theorem opcode_eq_iff (w : CmdWord) (op : BitVec 8) : opcode w = op ↔ op.toNat = w.toNat / 2 ^ 24 := by
  have hw := w.isLt
  unfold opcode
  rw [eq_comm, eq_field_iff]
  omega

theorem eq_bit_iff (w : CmdWord) (k : Nat) (c : Bool) :
    c = w.getLsbD k ↔ c.toNat = w.toNat / 2 ^ k % 2 := by
  rw [← Nat.toNat_testBit]
  change c = w.toNat.testBit k ↔ _
  cases c <;> cases w.toNat.testBit k <;> simp

/-- A mask that drops the low `k` bits rounds down to a multiple of `2 ^ k`. -/
theorem and_highMask_toNat (w : CmdWord) (k : Nat) :
    (w &&& BitVec.allOnes 32 <<< k).toNat = w.toNat / 2 ^ k * 2 ^ k := by
  have hle : w.toNat / 2 ^ k * 2 ^ k ≤ w.toNat := Nat.div_mul_le_self ..
  rw [← BitVec.shiftLeft_ushiftRight, BitVec.toNat_shiftLeft, BitVec.toNat_ushiftRight,
    Nat.shiftRight_eq_div_pow, Nat.shiftLeft_eq, Nat.mod_eq_of_lt (hle.trans_lt w.isLt)]

/-- The OR of two parts of a word that do not overlap is their sum. -/
theorem or_toNat {u v : CmdWord} {a b : Nat} (k : Nat) (hu : u.toNat = a) (hv : v.toNat = b)
    (ha : a % 2 ^ k = 0) (hb : b < 2 ^ k) : (u ||| v).toNat = a + b := by
  obtain ⟨q, rfl⟩ := Nat.dvd_of_mod_eq_zero ha
  rw [BitVec.toNat_or, hu, hv, Nat.mul_comm, ← Nat.shiftLeft_eq, Nat.shiftLeft_add_eq_or_of_lt hb]

theorem shiftedField_toNat {n : Nat} (v : BitVec n) (k : Nat) (h : n + k ≤ 32) :
    (v.setWidth 32 <<< k).toNat = v.toNat * 2 ^ k := by
  have hfits : v.toNat * 2 ^ k < 2 ^ 32 :=
    calc v.toNat * 2 ^ k < 2 ^ n * 2 ^ k := Nat.mul_lt_mul_of_pos_right v.isLt (by positivity)
      _ = 2 ^ (n + k) := (pow_add 2 n k).symm
      _ ≤ 2 ^ 32 := Nat.pow_le_pow_right (by decide) h
  rw [BitVec.toNat_shiftLeft, BitVec.toNat_setWidth_of_le (by omega), Nat.shiftLeft_eq,
    Nat.mod_eq_of_lt hfits]

/-! ### The words of `encode_cmd` -/

theorem encodeCmd_plot_toNat (x y : BitVec 8) (c : Bool) :
    (encodeCmd (.plot x y c)).toNat = 0x01000000 + c.toNat * 65536 + y.toNat * 256 + x.toNat := by
  have hx : (x.setWidth 32).toNat = x.toNat := BitVec.toNat_setWidth_of_le (by decide)
  have hy := shiftedField_toNat y 8 (by decide)
  have hc : (0x01000000#32 ||| ((if c then 1#32 else 0#32) <<< 16)).toNat =
      0x01000000 + c.toNat * 65536 := by cases c <;> rfl
  exact or_toNat 8 (or_toNat 16 hc hy (by omega) (by omega)) hx (by omega) (by omega)

theorem encodeCmd_sbw_toNat (addr : BitVec 10) (data : Byte) :
    (encodeCmd (.sbw addr data)).toNat = 0x05000000 + addr.toNat * 256 + data.toNat := by
  have hd : (data.setWidth 32).toNat = data.toNat := BitVec.toNat_setWidth_of_le (by decide)
  have ha := shiftedField_toNat addr 8 (by decide)
  exact or_toNat 8 (or_toNat 24 rfl ha (by decide) (by omega)) hd (by omega) (by omega)

/-! ### The layout of a command word -/

/-- `w` is laid out as the format of command `i` says (`30_encoding.md` R61 to R63): the opcode, zeros in
the reserved bits, and the operands in their fields. -/
def HasFormat (w : CmdWord) : Instr → Prop
  | .plot x y c => opcode w = 0x01 ∧ w.extractLsb' 17 7 = 0 ∧
      x = w.extractLsb' 0 8 ∧ y = w.extractLsb' 8 8 ∧ c = w.getLsbD 16
  | .encode => opcode w = 0x02 ∧ w.extractLsb' 0 24 = 0
  | .encclr => opcode w = 0x03 ∧ w.extractLsb' 0 24 = 0
  | .frame => opcode w = 0x04 ∧ w.extractLsb' 0 24 = 0
  | .sbw addr data => opcode w = 0x05 ∧ w.extractLsb' 18 6 = 0 ∧
      addr = w.extractLsb' 8 10 ∧ data = w.extractLsb' 0 8

/-- A command without operands is one word (`30_encoding.md` R61). -/
theorem formatN_iff (w : CmdWord) (op : BitVec 8) :
    opcode w = op ∧ w.extractLsb' 0 24 = 0 ↔ w.toNat = op.toNat * 2 ^ 24 := by
  have hw := w.isLt
  rw [opcode_eq_iff, BitVec.ofNat_eq_ofNat, field_eq_zero_iff]
  omega

/-- The words of `encode_cmd` are the words laid out as the formats say (`30_encoding.md` R67). -/
theorem encodeCmd_eq_iff {i : Instr} {w : CmdWord} : encodeCmd i = w ↔ HasFormat w i := by
  have hw := w.isLt
  rw [eq_comm, BitVec.toNat_eq]
  cases i with
  | plot x y c =>
    have hc := c.toNat_lt
    have hx := x.isLt
    have hy := y.isLt
    simp only [HasFormat, encodeCmd_plot_toNat, opcode_eq_iff, field_eq_zero_iff, eq_field_iff,
      eq_bit_iff, BitVec.ofNat_eq_ofNat, BitVec.toNat_ofNat]
    omega
  | encode => exact (formatN_iff w 0x02).symm
  | encclr => exact (formatN_iff w 0x03).symm
  | frame => exact (formatN_iff w 0x04).symm
  | sbw addr data =>
    have ha := addr.isLt
    have hd := data.isLt
    simp only [HasFormat, encodeCmd_sbw_toNat, opcode_eq_iff, field_eq_zero_iff, eq_field_iff,
      BitVec.ofNat_eq_ofNat, BitVec.toNat_ofNat]
    omega

/-! ### Decode, one equation for each opcode -/

theorem decode_of_opcode_plot {w : CmdWord} (h : opcode w = 0x01) : decode w = decodeP w := if_pos h

theorem decode_of_opcode_encode {w : CmdWord} (h : opcode w = 0x02) : decode w = decodeN w .encode := by
  simp [decode, h]

theorem decode_of_opcode_encclr {w : CmdWord} (h : opcode w = 0x03) : decode w = decodeN w .encclr := by
  simp [decode, h]

theorem decode_of_opcode_frame {w : CmdWord} (h : opcode w = 0x04) : decode w = decodeN w .frame := by
  simp [decode, h]

theorem decode_of_opcode_sbw {w : CmdWord} (h : opcode w = 0x05) : decode w = decodeS w := by
  simp [decode, h]

theorem decode_of_opcode_reserved {w : CmdWord} (h : opcode w = 0 ∨ 6 ≤ (opcode w).toNat) :
    decode w = .error .reservedOpcode := by
  unfold decode
  iterate 5 rw [if_neg (by bv_omega)]

/-- Every opcode is one of the five or reserved (`30_encoding.md` R66, case (a)). -/
theorem opcode_cases (w : CmdWord) :
    opcode w = 0x01 ∨ opcode w = 0x02 ∨ opcode w = 0x03 ∨ opcode w = 0x04 ∨ opcode w = 0x05 ∨
      (opcode w = 0 ∨ 6 ≤ (opcode w).toNat) := by
  bv_omega

/-! ### What passes a format's checks -/

theorem guard_eq_ok_iff {p : Prop} [Decidable p] {x : Except Malformed Instr} {e : Malformed}
    {i : Instr} : (if p then x else .error e) = .ok i ↔ p ∧ x = .ok i := by
  by_cases hp : p <;> simp [hp]

theorem guard_toOption {p : Prop} [Decidable p] (x : Except Malformed Instr) (e : Malformed) :
    (if p then x else .error e).toOption = if p then x.toOption else none :=
  apply_ite Except.toOption ..

theorem guard_error_iff {p : Prop} [Decidable p] {x : Except Malformed Instr} {e : Malformed} :
    (∃ e', (if p then x else .error e) = .error e') ↔ (p → ∃ e', x = .error e') := by
  by_cases hp : p <;> simp [hp]

theorem decodeP_eq_ok_iff {w : CmdWord} {i : Instr} : decodeP w = .ok i ↔
    w.extractLsb' 17 7 = 0 ∧ .plot (w.extractLsb' 0 8) (w.extractLsb' 8 8) (w.getLsbD 16) = i := by
  rw [decodeP, guard_eq_ok_iff, Except.ok.injEq]

theorem decodeN_eq_ok_iff {w : CmdWord} {i j : Instr} :
    decodeN w j = .ok i ↔ w.extractLsb' 0 24 = 0 ∧ j = i := by
  rw [decodeN, guard_eq_ok_iff, Except.ok.injEq]

theorem decodeS_eq_ok_iff {w : CmdWord} {i : Instr} : decodeS w = .ok i ↔
    w.extractLsb' 18 6 = 0 ∧ (w.extractLsb' 8 10).toNat < 896 ∧
      .sbw (w.extractLsb' 8 10) (w.extractLsb' 0 8) = i := by
  rw [decodeS, guard_eq_ok_iff, guard_eq_ok_iff, Except.ok.injEq]

/-- The words that decode are those laid out as the format of a command with operands in range
(`30_encoding.md` R67). -/
theorem decode_eq_ok_iff {w : CmdWord} {i : Instr} :
    decode w = .ok i ↔ HasFormat w i ∧ i.wellFormed = true := by
  constructor
  · intro h
    refine ⟨?_, decode_wellFormed h⟩
    rcases opcode_cases w with hop | hop | hop | hop | hop | hop
    · rw [decode_of_opcode_plot hop, decodeP_eq_ok_iff] at h
      obtain ⟨hz, rfl⟩ := h
      exact ⟨hop, hz, rfl, rfl, rfl⟩
    · rw [decode_of_opcode_encode hop, decodeN_eq_ok_iff] at h
      obtain ⟨hz, rfl⟩ := h
      exact ⟨hop, hz⟩
    · rw [decode_of_opcode_encclr hop, decodeN_eq_ok_iff] at h
      obtain ⟨hz, rfl⟩ := h
      exact ⟨hop, hz⟩
    · rw [decode_of_opcode_frame hop, decodeN_eq_ok_iff] at h
      obtain ⟨hz, rfl⟩ := h
      exact ⟨hop, hz⟩
    · rw [decode_of_opcode_sbw hop, decodeS_eq_ok_iff] at h
      obtain ⟨hz, -, rfl⟩ := h
      exact ⟨hop, hz, rfl, rfl⟩
    · rw [decode_of_opcode_reserved hop] at h
      cases h
  · rintro ⟨hfmt, hwf⟩
    cases i with
    | plot x y c =>
      obtain ⟨hop, hz, rfl, rfl, rfl⟩ := hfmt
      exact (decode_of_opcode_plot hop).trans (if_pos hz)
    | encode =>
      obtain ⟨hop, hz⟩ := hfmt
      exact (decode_of_opcode_encode hop).trans (if_pos hz)
    | encclr =>
      obtain ⟨hop, hz⟩ := hfmt
      exact (decode_of_opcode_encclr hop).trans (if_pos hz)
    | frame =>
      obtain ⟨hop, hz⟩ := hfmt
      exact (decode_of_opcode_frame hop).trans (if_pos hz)
    | sbw addr data =>
      obtain ⟨hop, hz, rfl, rfl⟩ := hfmt
      have hrange : (w.extractLsb' 8 10).toNat < 896 := by simpa [Instr.wellFormed] using hwf
      exact (decode_of_opcode_sbw hop).trans ((if_pos hz).trans (if_pos hrange))

/-! ### The two are inverse to each other -/

theorem decode_encodeCmd {i : Instr} (hwf : i.wellFormed = true) : decode (encodeCmd i) = .ok i :=
  decode_eq_ok_iff.2 ⟨encodeCmd_eq_iff.1 rfl, hwf⟩

theorem encodeCmd_of_decode {w : CmdWord} {i : Instr} (h : decode w = .ok i) : encodeCmd i = w :=
  encodeCmd_eq_iff.2 (decode_eq_ok_iff.1 h).1

/-- A word of the table is a command word, bit for bit (log entry 8). -/
theorem tableWord_toNat (w : CmdWord) : tableWord 32 w.toNat = w := by
  rw [tableWord, Nat.mod_eq_of_lt w.isLt, BitVec.ofNat_toNat, BitVec.setWidth_eq]

theorem decodeTableWord_toNat (w : CmdWord) : decodeTableWord 32 w.toNat = (decode w).toOption := by
  unfold decodeTableWord
  rw [tableWord_toNat]
  cases decode w <;> rfl

theorem field_opcode (w : CmdWord) : w.extractLsb' 24 8 = opcode w := rfl

/-- `30_encoding.md` R67, the procedure `decode`. -/
theorem decode_toOption (w : CmdWord) : (decode w).toOption =
    if w.extractLsb' 24 8 = 0x01 ∧ w.extractLsb' 17 7 = 0 then
      some (.plot (w.extractLsb' 0 8) (w.extractLsb' 8 8) (w.getLsbD 16))
    else if w.extractLsb' 24 8 = 0x02 ∧ w.extractLsb' 0 24 = 0 then some .encode
    else if w.extractLsb' 24 8 = 0x03 ∧ w.extractLsb' 0 24 = 0 then some .encclr
    else if w.extractLsb' 24 8 = 0x04 ∧ w.extractLsb' 0 24 = 0 then some .frame
    else if w.extractLsb' 24 8 = 0x05 ∧ w.extractLsb' 18 6 = 0 ∧ (w.extractLsb' 8 10).toNat < 896 then
      some (.sbw (w.extractLsb' 8 10) (w.extractLsb' 0 8))
    else none := by
  rw [field_opcode]
  rcases opcode_cases w with hop | hop | hop | hop | hop | hop
  · rw [decode_of_opcode_plot hop, decodeP, guard_toOption, hop]; simp [Except.toOption]
  · rw [decode_of_opcode_encode hop, decodeN, guard_toOption, hop]; simp [Except.toOption]
  · rw [decode_of_opcode_encclr hop, decodeN, guard_toOption, hop]; simp [Except.toOption]
  · rw [decode_of_opcode_frame hop, decodeN, guard_toOption, hop]; simp [Except.toOption]
  · rw [decode_of_opcode_sbw hop, decodeS, guard_toOption, guard_toOption, hop]
    simp [Except.toOption, ite_and]
  · rw [decode_of_opcode_reserved hop]
    iterate 5 rw [if_neg (by bv_omega)]
    rfl

/-- Settles O33: a word decodes to a command just when it is laid out as the command's format says, and so
is just the word of that command. -/
theorem decodeEncodeInverse : Obligations.DecodeEncodeInverse := by
  unfold Obligations.DecodeEncodeInverse
  exact ⟨fun w => (decodeTableWord_toNat w).trans (decode_toOption w), encodeCmd_plot_toNat, rfl, rfl, rfl,
    encodeCmd_sbw_toNat, fun _ => decode_encodeCmd,
    fun _ _ h => ⟨encodeCmd_of_decode h, decode_wellFormed h⟩⟩

/-! ### Masks and matches -/

theorem maskP_iff (w : CmdWord) :
    w &&& 0xFFFE0000 = 0x01000000 ↔ opcode w = 0x01 ∧ w.extractLsb' 17 7 = 0 := by
  have hmask : (w &&& 0xFFFE0000).toNat = w.toNat / 2 ^ 17 * 2 ^ 17 := and_highMask_toNat w 17
  have hw := w.isLt
  rw [BitVec.toNat_eq, hmask, opcode_eq_iff]
  simp only [BitVec.ofNat_eq_ofNat, field_eq_zero_iff, BitVec.toNat_ofNat]
  omega

theorem maskS_iff (w : CmdWord) :
    w &&& 0xFFFC0000 = 0x05000000 ↔ opcode w = 0x05 ∧ w.extractLsb' 18 6 = 0 := by
  have hmask : (w &&& 0xFFFC0000).toNat = w.toNat / 2 ^ 18 * 2 ^ 18 := and_highMask_toNat w 18
  have hw := w.isLt
  rw [BitVec.toNat_eq, hmask, opcode_eq_iff]
  simp only [BitVec.ofNat_eq_ofNat, field_eq_zero_iff, BitVec.toNat_ofNat]
  omega

/-- The rows without operands fix every bit. -/
theorem maskN_iff (w m : CmdWord) : w &&& 0xFFFFFFFF = m ↔ m = w := by
  rw [show w &&& 0xFFFFFFFF = w from BitVec.and_allOnes, eq_comm]

theorem decode_eq_ok_iff_encodeCmd {w : CmdWord} {i : Instr} (hwf : i.wellFormed = true) :
    decode w = .ok i ↔ encodeCmd i = w := by
  rw [decode_eq_ok_iff, encodeCmd_eq_iff, and_iff_left hwf]

/-- Settles O32: the mask of a row keeps the opcode and the reserved bits, which its match fixes. -/
theorem opcodeMap : Obligations.OpcodeMap := by
  unfold Obligations.OpcodeMap
  intro w
  simp only [maskP_iff, maskS_iff, maskN_iff]
  refine ⟨fun x y c => ?_, decode_eq_ok_iff_encodeCmd rfl, decode_eq_ok_iff_encodeCmd rfl,
    decode_eq_ok_iff_encodeCmd rfl, fun a d => ?_⟩
  · simp only [decode_eq_ok_iff, HasFormat, Instr.wellFormed, and_true, and_assoc]
  · rw [decode_eq_ok_iff, HasFormat, Instr.wellFormed, decide_eq_true_iff]
    constructor
    · rintro ⟨⟨hop, hz, rfl, rfl⟩, hrange⟩
      exact ⟨⟨hop, hz⟩, hrange, rfl, rfl⟩
    · rintro ⟨⟨hop, hz⟩, hrange, rfl, rfl⟩
      exact ⟨⟨hop, hz, rfl, rfl⟩, hrange⟩

/-! ### Malformed words -/

/-- The malformed words, case by case (`30_encoding.md` R66). -/
theorem decode_error_iff (w : CmdWord) : (∃ e, decode w = .error e) ↔
      (opcode w = 0 ∨ 6 ≤ (opcode w).toNat) ∨
      ((opcode w = 2 ∨ opcode w = 3 ∨ opcode w = 4) ∧ w.extractLsb' 0 24 ≠ 0) ∨
      (opcode w = 1 ∧ w.extractLsb' 17 7 ≠ 0) ∨
      (opcode w = 5 ∧ w.extractLsb' 18 6 ≠ 0) ∨
      (opcode w = 5 ∧ 896 ≤ (w.extractLsb' 8 10).toNat) := by
  rcases opcode_cases w with hop | hop | hop | hop | hop | hop
  · rw [decode_of_opcode_plot hop, decodeP, guard_error_iff, hop]; simp
  · rw [decode_of_opcode_encode hop, decodeN, guard_error_iff, hop]; simp
  · rw [decode_of_opcode_encclr hop, decodeN, guard_error_iff, hop]; simp
  · rw [decode_of_opcode_frame hop, decodeN, guard_error_iff, hop]; simp
  · rw [decode_of_opcode_sbw hop, decodeS, guard_error_iff, guard_error_iff, hop]; simp [imp_iff_not_or]
  · exact iff_of_true ⟨_, decode_of_opcode_reserved hop⟩ (.inl hop)

theorem rejected_raise (s : State) : Rejected s (s.raise .malformedCommand) := by
  simp [Rejected, SameHost, Err.code]

/-- Settles O31: a reserved opcode is malformed whatever else the word holds, each other opcode leaves just
the checks of its own format, and a malformed word raises. -/
theorem malformedWords : Obligations.MalformedWords := by
  unfold Obligations.MalformedWords
  intro w
  exact ⟨decode_error_iff w, fun ⟨_, he⟩ s => ⟨_, runWord_error s he, rejected_raise s⟩⟩

end Sys2Proof.Machine

namespace Sys2Proof.Machine

/-! ### The assembler -/

theorem expandLine_plot_toNat (x y : BitVec 8) (c : Bool) :
    expandLine (.plot x.toNat y.toNat c.toNat) = some [.plot x y c] := by
  have hrange : x.toNat ≤ 255 ∧ y.toNat ≤ 255 ∧ c.toNat ≤ 1 :=
    ⟨Nat.le_of_lt_succ x.isLt, Nat.le_of_lt_succ y.isLt, Bool.toNat_le c⟩
  calc expandLine (.plot x.toNat y.toNat c.toNat)
    _ = some [.plot (BitVec.ofNat 8 x.toNat) (BitVec.ofNat 8 y.toNat) (c.toNat = 1)] := if_pos hrange
    _ = some [.plot x y c] := by cases c <;> simp

theorem asmPlot_outOfRange {x y c : Nat} (h : 255 < x ∨ 255 < y ∨ 1 < c) : asmPlot x y c = none :=
  if_neg (by omega)

theorem asmSbw_inRange {addr data : Nat} (ha : addr ≤ 895) (hd : data ≤ 255) :
    asmSbw addr data = some [.sbw (BitVec.ofNat 10 addr) (BitVec.ofNat 8 data)] := if_pos ⟨ha, hd⟩

theorem asmSbw_outOfRange {addr data : Nat} (h : 895 < addr ∨ 255 < data) : asmSbw addr data = none :=
  if_neg (by omega)

theorem expandLine_sbw_toNat {addr : BitVec 10} (data : Byte) (h : addr.toNat < 896) :
    expandLine (.sbw addr.toNat data.toNat) = some [.sbw addr data] := by
  have hasm := asmSbw_inRange (Nat.le_of_lt_succ h) (Nat.le_of_lt_succ data.isLt)
  rwa [BitVec.ofNat_toNat, BitVec.ofNat_toNat, BitVec.setWidth_eq, BitVec.setWidth_eq] at hasm

theorem asmPlot_wellFormed {x y c : Nat} {is : List Instr} (h : asmPlot x y c = some is) :
    ∀ i ∈ is, i.wellFormed = true := by
  unfold asmPlot at h
  split_ifs at h
  cases h
  simp [Instr.wellFormed]

theorem sbw_ofNat_wellFormed {addr : Nat} (data : Nat) (h : addr ≤ 895) :
    (Instr.sbw (BitVec.ofNat 10 addr) (BitVec.ofNat 8 data)).wellFormed = true := by
  have hrange : addr % 2 ^ 10 < 896 := by omega
  simpa [Instr.wellFormed] using hrange

theorem asmSbw_wellFormed {addr data : Nat} {is : List Instr} (h : asmSbw addr data = some is) :
    ∀ i ∈ is, i.wellFormed = true := by
  unfold asmSbw at h
  split_ifs at h with hrange
  cases h
  simpa using sbw_ofNat_wellFormed data hrange.1

/-- The commands of a `LOADSB` of `bytes`, from address `addr` on (`30_encoding.md` R69). -/
def loadCmds (addr : Nat) (bytes : List Nat) : List Instr :=
  (bytes.zipIdx addr).map fun p => .sbw (BitVec.ofNat 10 p.2) (BitVec.ofNat 8 p.1)

theorem asmLoad_cons {addr b : Nat} {bs : List Nat} {first rest : List Instr}
    (hfirst : asmSbw addr b = some first) (hrest : asmLoad (addr + 1) bs = some rest) :
    asmLoad addr (b :: bs) = some (first ++ rest) := by
  simp [asmLoad, hfirst, hrest]

theorem asmLoad_inRange {bytes : List Nat} {addr : Nat} (hlen : addr + bytes.length ≤ 896)
    (hv : ∀ v ∈ bytes, v ≤ 255) : asmLoad addr bytes = some (loadCmds addr bytes) := by
  induction bytes generalizing addr with
  | nil => rfl
  | cons b bs ih =>
    simp only [List.length_cons] at hlen
    simp only [List.forall_mem_cons] at hv
    obtain ⟨hb, hbs⟩ := hv
    have hrest := ih (addr := addr + 1) (by omega) hbs
    exact asmLoad_cons (asmSbw_inRange (by omega) hb) hrest

theorem asmLoad_outOfRange {bytes : List Nat} (h : ∃ v ∈ bytes, 255 < v) (addr : Nat) :
    asmLoad addr bytes = none := by
  induction bytes generalizing addr with
  | nil => simp at h
  | cons b bs ih =>
    simp only [List.exists_mem_cons_iff] at h
    rcases h with hb | hbs
    · simp [asmLoad, asmSbw_outOfRange (.inr hb)]
    · simp [asmLoad, ih hbs]

theorem asmLoad_wellFormed {bytes : List Nat} {addr : Nat} {is : List Instr}
    (h : asmLoad addr bytes = some is) : ∀ i ∈ is, i.wellFormed = true := by
  induction bytes generalizing addr is with
  | nil => cases h; simp
  | cons b bs ih =>
    unfold asmLoad at h
    split at h
    · next first rest hfirst hrest =>
      cases h
      exact List.forall_mem_append.2 ⟨asmSbw_wellFormed hfirst, ih hrest⟩
    · cases h

theorem expandLine_loadsb_eq (bytes : List Nat) :
    expandLine (.loadsb bytes) = if bytes.length = 896 then asmLoad 0 bytes else none := rfl

theorem expandLine_wellFormed {l : AsmLine} {is : List Instr} (h : expandLine l = some is) :
    ∀ i ∈ is, i.wellFormed = true := by
  cases l with
  | plot x y c => exact asmPlot_wellFormed h
  | setpix x y => exact asmPlot_wellFormed h
  | clrpix x y => exact asmPlot_wellFormed h
  | sbw addr data => exact asmSbw_wellFormed h
  | loadsb bytes =>
    rw [expandLine_loadsb_eq] at h
    split_ifs at h
    exact asmLoad_wellFormed h
  | encode => cases h; simp [Instr.wellFormed]
  | encclr => cases h; simp [Instr.wellFormed]
  | frame => cases h; simp [Instr.wellFormed]
  | render => cases h; simp [Instr.wellFormed]
  | rendclr => cases h; simp [Instr.wellFormed]

theorem assembleLine_of_expandLine {l : AsmLine} {is : List Instr} (h : expandLine l = some is) :
    assembleLine l = some (is.map encodeCmd) := by
  rw [assembleLine, h, Option.map_some]

@[simp] theorem loadCmds_length (addr : Nat) (bytes : List Nat) :
    (loadCmds addr bytes).length = bytes.length := by
  simp [loadCmds]

theorem expandLine_loadsb {bytes : List Nat} (hlen : bytes.length = 896) (hv : ∀ v ∈ bytes, v ≤ 255) :
    expandLine (.loadsb bytes) = some (loadCmds 0 bytes) := by
  rw [expandLine_loadsb_eq, if_pos hlen, asmLoad_inRange (by omega) hv]

theorem loadCmds_getElem? {bytes : List Byte} {a : Nat} (h : a < bytes.length) :
    (loadCmds 0 (bytes.map BitVec.toNat))[a]? = some (.sbw (BitVec.ofNat 10 a) (bytes.getD a 0)) := by
  simp [loadCmds, h]

theorem expandLine_loadsb_rejected {bytes : List Nat}
    (h : bytes.length ≠ 896 ∨ ∃ v ∈ bytes, 255 < v) : expandLine (.loadsb bytes) = none := by
  rw [expandLine_loadsb_eq]
  split_ifs with hlen
  · exact asmLoad_outOfRange (h.resolve_left (not_not.2 hlen)) 0
  · rfl

/-- Settles O47: whatever a line expands to is well-formed, so its words decode to it; each kind of line
has its operands checked by `asmPlot`, `asmSbw` or `asmLoad`. -/
theorem assembledWordsDecode : Obligations.AssembledWordsDecode := by
  unfold Obligations.AssembledWordsDecode
  refine ⟨fun l is h => ⟨assembleLine_of_expandLine h, fun i hi => ?_⟩,
    fun x y c => ⟨expandLine_plot_toNat x y c, ?_⟩, fun _ _ _ => asmPlot_outOfRange,
    fun addr data ha => ⟨expandLine_sbw_toNat data ha, ?_⟩, fun _ _ => asmSbw_outOfRange,
    rfl, rfl, rfl, fun _ _ => ⟨rfl, rfl⟩, rfl, rfl,
    fun bytes hlen => ?_, fun _ => expandLine_loadsb_rejected⟩
  · have hwf := expandLine_wellFormed h i hi
    exact ⟨hwf, decode_encodeCmd hwf⟩
  · exact ⟨_, assembleLine_of_expandLine (expandLine_plot_toNat x y c), encodeCmd_plot_toNat x y c⟩
  · exact ⟨_, assembleLine_of_expandLine (expandLine_sbw_toNat data ha), encodeCmd_sbw_toNat addr data⟩
  · have hv : ∀ v ∈ bytes.map BitVec.toNat, v ≤ 255 := by
      simpa using fun b _ => Nat.le_of_lt_succ (BitVec.isLt b)
    have hlen' : (bytes.map BitVec.toNat).length = 896 := (List.length_map ..).trans hlen
    exact ⟨_, expandLine_loadsb hlen' hv, (loadCmds_length ..).trans hlen',
      fun a ha => loadCmds_getElem? (by omega)⟩

/-! ### LOADSB -/

theorem execAll_cons {i : Instr} {s t : State} (h : exec i s = .next t) (is : List Instr) :
    execAll (i :: is) s = execAll is t := by
  rw [execAll, h]

theorem Executed.sbGet_sbw {addr : BitVec 10} {data : Byte} {s t : State}
    (h : Executed (.sbw addr data) s t) (a : Nat) :
    sbGet t a = if a = addr.toNat then data else sbGet s a := by
  obtain ⟨-, -, hdraws⟩ := h.host
  have hsb : t.sb = (sbSet s addr.toNat data).sb := h.sb
  rw [← sbGet_sbSet, sbGet_congr hsb hdraws]

/-- From `s` to `t`, the values `bytes` have been written to SB from address `addr` on, and nothing else
has changed but ERR. -/
structure Loaded (addr : Nat) (bytes : List Nat) (s t : State) : Prop where
  written : ∀ k < bytes.length, sbGet t (addr + k) = BitVec.ofNat 8 (bytes.getD k 0)
  below : ∀ a < addr, sbGet t a = sbGet s a
  wb : SameWb s t
  tx : t.tx = s.tx
  err : statErr t.stat = if bytes = [] then statErr s.stat else 0
  estk : statEstk t.stat = statEstk s.stat
  host : SameHost s t

theorem Loaded.nil (addr : Nat) (s : State) : Loaded addr [] s s := by
  constructor <;> simp [SameWb, SameHost]

theorem Loaded.cons {addr b : Nat} {bs : List Nat} {s u t : State} (haddr : addr < 896)
    (h : Executed (.sbw (BitVec.ofNat 10 addr) (BitVec.ofNat 8 b)) s u)
    (hl : Loaded (addr + 1) bs u t) : Loaded addr (b :: bs) s t where
  written k hk := by
    cases k with
    | zero =>
      rw [Nat.add_zero, hl.below addr (by omega), h.sbGet_sbw, BitVec.toNat_ofNat, if_pos (by omega)]
      simp
    | succ k =>
      rw [show addr + (k + 1) = addr + 1 + k by omega]
      simpa using hl.written k (by simpa using hk)
  below a ha := by
    rw [hl.below a (by omega), h.sbGet_sbw, BitVec.toNat_ofNat, if_neg (by omega)]
  wb a := (hl.wb a).trans (h.sameWb_of_sbw a)
  tx := hl.tx.trans h.tx
  err := by simp [hl.err, h.stat]
  estk := by simp [hl.estk, h.stat]
  host := by
    obtain ⟨hci, hport, hdraws⟩ := h.host
    obtain ⟨hci', hport', hdraws'⟩ := hl.host
    exact ⟨hci'.trans hci, hport'.trans hport, hdraws'.trans hdraws⟩

/-- The commands of a `LOADSB` complete one after the other, each with its byte written. -/
theorem execAll_loadCmds {bytes : List Nat} {addr : Nat} (hlen : addr + bytes.length ≤ 896) (s : State) :
    ∃ t, execAll (loadCmds addr bytes) s = .next t ∧ Loaded addr bytes s t := by
  induction bytes generalizing addr s with
  | nil => exact ⟨s, rfl, .nil addr s⟩
  | cons b bs ih =>
    simp only [List.length_cons] at hlen
    obtain ⟨u, hu, hex⟩ := exec_wellFormed (sbw_ofNat_wellFormed (addr := addr) b (by omega)) s
    obtain ⟨t, ht, hl⟩ := ih (addr := addr + 1) (by omega) u
    exact ⟨t, (execAll_cons hu _).trans ht, .cons (by omega) hex hl⟩

/-- Settles O48: each of the 896 SBW writes its own byte, and none writes anything else. -/
theorem loadsbLoadsTheBitmap : Obligations.LoadsbLoadsTheBitmap := by
  unfold Obligations.LoadsbLoadsTheBitmap
  intro bytes hlen hv s
  obtain ⟨t, ht, hl⟩ := execAll_loadCmds (addr := 0) (bytes := bytes) (by omega) s
  have hne : bytes ≠ [] := List.ne_nil_of_length_pos (by omega)
  refine ⟨_, t, expandLine_loadsb hlen hv, (loadCmds_length ..).trans hlen, ht, fun a ha => ?_, hl.wb,
    hl.tx, ⟨hl.err.trans (if_neg hne), hl.estk⟩, hl.host⟩
  simpa using hl.written a (by omega)

end Sys2Proof.Machine

/-! ### The table and its inverse -/

namespace Sys2Proof.Machine

/-- Bit `b` of byte `k` of a column group: byte and bit are the quotient and the remainder by 7 of the
value `7 * k + b` (`40_remap_plot.md` R85). -/
theorem tblInverse_place {b : Nat} (hb : b < 7) (k : Nat) :
    tblInverse (7 * k + b) = (7 - (7 * k + 6 - b) % 8, (7 * k + 6 - b) / 8) := by
  have hn : 7 * ((7 * k + b) / 7) + 6 - (7 * k + b) % 7 = 7 * k + 6 - b := by omega
  simp only [tblInverse, hn]

theorem tblInverse_row_lt (p : Nat) : (tblInverse p).1 < 8 := by
  simp only [tblInverse]; omega

theorem tblInverse_col_lt {p : Nat} (hp : p < 56) : (tblInverse p).2 < 7 := by
  simp only [tblInverse]; omega

/-- Every value below 56 stands where the inverse table says (`40_remap_plot.md` R85). -/
theorem tbl_tblInverse {p : Nat} (hp : p < 56) : tbl (tblInverse p).1 (tblInverse p).2 = p := by
  have table : ∀ p < 56, tbl (tblInverse p).1 (tblInverse p).2 = p := by decide
  exact table p hp

/-- Settles O3: the place of each value is the one that the inverse table names. -/
theorem tableIsBijection : Obligations.TableIsBijection := by
  unfold Obligations.TableIsBijection
  refine ⟨by decide, fun r hr c hc => tbl_lt hr hc, fun p hp => ?_⟩
  refine ⟨_, tblInverse_row_lt p, _, tblInverse_col_lt hp, tbl_tblInverse hp, ?_⟩
  rintro r hr c hc rfl
  rw [tblInverse_tbl hr hc]
  exact ⟨rfl, rfl⟩

/-- Settles O4: the closed form is compared entry by entry; that of the inverse is its definition. -/
theorem tableClosedForm : Obligations.TableClosedForm := by
  unfold Obligations.TableClosedForm
  exact ⟨by decide, fun p hp => ⟨tbl_tblInverse hp, rfl⟩, by decide⟩

/-! ### The ranges of the address computation -/

theorem colGroup_le {x y : Nat} (hx : x < 128) (hy : y < 64) : colGroup x y ≤ 146 := by
  have := linCol_lt hx hy
  unfold colGroup; omega

theorem colInGroup_lt (x y : Nat) : colInGroup x y < 7 := Nat.mod_lt _ (by decide)

/-- The linear columns end two columns into group 146 (`40_remap_plot.md` R89). -/
theorem colInGroup_lt_of_last_group {x y : Nat} (hx : x < 128) (hy : y < 64)
    (h : colGroup x y = 146) : colInGroup x y < 2 := by
  have := linCol_lt hx hy
  unfold colGroup at h
  unfold colInGroup; omega

/-- The last group has three bytes (`40_remap_plot.md` R84). -/
theorem byteInGroup_le_of_last_group {x y : Nat} (hx : x < 128) (hy : y < 64)
    (h : colGroup x y = 146) : permutedBit x y / 7 ≤ 2 :=
  tbl_partial_group (Nat.mod_lt _ (by decide)) (colInGroup_lt_of_last_group hx hy h)

/-- Two columns and eight rows lie in the last group (`40_remap_plot.md` R89). -/
theorem colGroup_eq_last_iff {x y : Nat} (hx : x < 128) (hy : y < 64) :
    colGroup x y = 146 ↔ 126 ≤ x ∧ 56 ≤ y := by
  unfold colGroup linCol stripeIndex; omega

/-- Settles O8: the coordinates by arithmetic, their cells by evaluation. -/
theorem partialGroup : Obligations.PartialGroup := by
  unfold Obligations.PartialGroup
  refine ⟨fun x y hx hy => ⟨colGroup_eq_last_iff hx hy, ?_⟩, by decide, by decide, by decide, by decide⟩
  have := linCol_lt hx hy
  unfold colGroup colInGroup
  omega

theorem one_le_shifted_bit (b : Nat) : 1 ≤ 1 <<< b := by
  rw [Nat.one_shiftLeft]; exact Nat.one_le_two_pow

theorem shifted_bit_le {b : Nat} (hb : b < 7) : 1 <<< b ≤ 64 := by
  rw [Nat.one_shiftLeft]; exact Nat.pow_le_pow_right (by decide) (Nat.le_of_lt_succ hb : b ≤ 6)

/-! ### The address computation on wires -/

theorem extractLsb'_stripe_toNat (y : BitVec 6) : (y.extractLsb' 3 3).toNat = stripeIndex y.toNat := by
  have := y.isLt
  rw [BitVec.extractLsb'_toNat, Nat.shiftRight_eq_div_pow, stripeIndex]; omega

theorem extractLsb'_row_toNat (y : BitVec 6) : (y.extractLsb' 0 3).toNat = rowInStripe y.toNat := by
  rw [BitVec.extractLsb'_toNat]; rfl

/-- The stripe's bits above the column's seven are the linear column (`40_remap_plot.md` R83). -/
theorem append_stripe_toNat (x : BitVec 7) (y : BitVec 6) :
    (y.extractLsb' 3 3 ++ x).toNat = linCol x.toNat y.toNat := by
  rw [BitVec.toNat_append, extractLsb'_stripe_toNat, ← Nat.shiftLeft_add_eq_or_of_lt x.isLt,
    Nat.shiftLeft_eq, linCol]
  omega

/-- Three zeros behind a group number multiply it by 8 (`40_remap_plot.md` R83). -/
theorem append_three_zeros_toNat (g : BitVec 8) : (g ++ 0#3).toNat = g.toNat * 8 := by
  rw [BitVec.toNat_append, Nat.shiftLeft_eq]
  exact Nat.or_zero _

/-- Settles O6: the bit fields and concatenations, each read as a number. -/
theorem remapAsWiring : Obligations.RemapAsWiring := by
  unfold Obligations.RemapAsWiring
  intro x y
  refine ⟨(extractLsb'_stripe_toNat y).symm, (extractLsb'_row_toNat y).symm,
    (append_stripe_toNat x y).symm, ?_⟩
  have hgroup := colGroup_le x.isLt y.isLt
  rw [append_three_zeros_toNat, BitVec.toNat_ofNat, Nat.mod_eq_of_lt (by omega), byteOffset]

section Wires
variable (x : BitVec 7) (y : BitVec 6)

theorem remapWires_group : (remapWires x y).group.toNat = colGroup x.toNat y.toNat := by
  have hgroup := colGroup_le x.isLt y.isLt
  have h : (remapWires x y).group.toNat = (y.extractLsb' 3 3 ++ x).toNat / 7 % 2 ^ 8 := by
    simp [remapWires]
  rw [h, append_stripe_toNat]
  exact Nat.mod_eq_of_lt (by unfold colGroup at hgroup; omega)

theorem remapWires_col : (remapWires x y).col.toNat = colInGroup x.toNat y.toNat := by
  have h : (remapWires x y).col.toNat = (y.extractLsb' 3 3 ++ x).toNat % 7 % 2 ^ 3 := by
    simp [remapWires]
  rw [h, append_stripe_toNat]
  exact Nat.mod_eq_of_lt (by omega)

theorem remapWires_permuted :
    (remapWires x y).permuted.toNat = permutedBit x.toNat y.toNat := by
  have hperm := permutedBit_lt x.toNat y.toNat
  have h : (remapWires x y).permuted.toNat =
      tbl (y.extractLsb' 0 3).toNat (remapWires x y).col.toNat % 2 ^ 6 := BitVec.toNat_ofNat ..
  rw [h, extractLsb'_row_toNat, remapWires_col]
  exact Nat.mod_eq_of_lt (by unfold permutedBit at hperm; omega)

theorem remapWires_byteInGroup :
    (remapWires x y).byteInGroup.toNat = permutedBit x.toNat y.toNat / 7 := by
  have hperm := permutedBit_lt x.toNat y.toNat
  have h : (remapWires x y).byteInGroup.toNat = (remapWires x y).permuted.toNat / 7 % 2 ^ 3 := by
    simp [remapWires]
  rw [h, remapWires_permuted]
  omega

theorem remapWires_bit : (remapWires x y).bit.toNat = bitOffset x.toNat y.toNat := by
  have h : (remapWires x y).bit.toNat = (remapWires x y).permuted.toNat % 7 % 2 ^ 3 := by
    simp [remapWires]
  rw [h, remapWires_permuted, bitOffset]
  omega

theorem remapWires_mask : (remapWires x y).mask.toNat = 1 <<< bitOffset x.toNat y.toNat := by
  have hmask := shifted_bit_le (bitOffset_lt x.toNat y.toNat)
  have h : (remapWires x y).mask.toNat = 1 <<< (remapWires x y).bit.toNat % 2 ^ 7 :=
    BitVec.toNat_shiftLeft (x := 1#7) ..
  rw [h, remapWires_bit]
  exact Nat.mod_eq_of_lt (by omega)

theorem remapWires_byte : (remapWires x y).byte.toNat = byteOffset x.toNat y.toNat := by
  have hbyte := byteOffset_lt x.isLt y.isLt
  have h : (remapWires x y).byte = 4 + ((remapWires x y).group ++ 0#3) +
      (remapWires x y).byteInGroup.setWidth 11 := rfl
  rw [h]
  simp only [BitVec.toNat_add, BitVec.ofNat_eq_ofNat, BitVec.toNat_ofNat, BitVec.toNat_setWidth,
    append_three_zeros_toNat, remapWires_group, remapWires_byteInGroup]
  unfold byteOffset at hbyte ⊢
  omega

end Wires

/-- Settles O5: each quantity stays in its range, so no wire of R84 wraps. -/
theorem remapRanges : Obligations.RemapRanges := by
  unfold Obligations.RemapRanges
  refine ⟨fun x y hx hy => ?_, by decide, fun x y => ?_⟩
  · have hlin := linCol_lt hx hy
    have hcol := colInGroup_lt x y
    have hperm := permutedBit_lt x y
    have hbit := bitOffset_lt x y
    have hbyte := byteOffset_lt hx hy
    refine ⟨by unfold stripeIndex; omega, by unfold rowInStripe; omega, by omega, colGroup_le hx hy,
      by omega, fun h => Nat.le_of_lt_succ (colInGroup_lt_of_last_group hx hy h), by omega, by omega,
      byteInGroup_le_of_last_group hx hy, by omega, one_le_shifted_bit _, shifted_bit_le hbit,
      four_le_byteOffset x y, by omega, fun h => by unfold byteOffset; omega⟩
  · exact ⟨extractLsb'_stripe_toNat y, extractLsb'_row_toNat y, append_stripe_toNat x y,
      remapWires_group x y, remapWires_col x y, remapWires_permuted x y, remapWires_byteInGroup x y,
      remapWires_bit x y, remapWires_mask x y, remapWires_byte x y⟩

/-! ### The inverse of the address computation -/

/-- The linear column that the inverse computes for bit `b` of `WB[i]` (`40_remap_plot.md` R94). -/
def invLin (i b : Nat) : Nat := 7 * ((i - 4) / 8) + (tblInverse (7 * ((i - 4) % 8) + b)).2

theorem cellCoord_eq (i b : Nat) : cellCoord i b =
    if 1024 ≤ invLin i b then none
    else some (invLin i b % 128,
      8 * (invLin i b / 128) + (tblInverse (7 * ((i - 4) % 8) + b)).1) := rfl

/-- The inverse takes the cell of a coordinate back to it (`40_remap_plot.md` R94). -/
theorem cellCoord_remap {x y : Nat} (hx : x < 128) (hy : y < 64) :
    cellCoord (byteOffset x y) (bitOffset x y) = some (x, y) := by
  have hperm := permutedBit_lt x y
  have hplace : 7 * ((byteOffset x y - 4) % 8) + bitOffset x y = permutedBit x y := by
    unfold byteOffset bitOffset; omega
  have hinv : tblInverse (permutedBit x y) = (y % 8, linCol x y % 7) :=
    tblInverse_tbl (Nat.mod_lt _ (by decide)) (Nat.mod_lt _ (by decide))
  have hlin : invLin (byteOffset x y) (bitOffset x y) = linCol x y := by
    rw [invLin, hplace, hinv]
    unfold byteOffset colGroup
    omega
  have hlt := linCol_lt hx hy
  rw [cellCoord_eq, hplace, hlin, hinv, if_neg (by omega)]
  unfold linCol stripeIndex
  congr 2 <;> omega

/-- A coordinate that the inverse answers is in the grid and has the cell asked for
(`40_remap_plot.md` R94). -/
theorem remap_of_cellCoord {i b x y : Nat} (hi : 4 ≤ i) (hb : b < 7)
    (h : cellCoord i b = some (x, y)) :
    x < 128 ∧ y < 64 ∧ byteOffset x y = i ∧ bitOffset x y = b := by
  rw [cellCoord_eq] at h
  split_ifs at h with hlin
  obtain ⟨rfl, rfl⟩ := Prod.mk.inj (Option.some.inj h)
  have hp : 7 * ((i - 4) % 8) + b < 56 := by omega
  have hrow := tblInverse_row_lt (7 * ((i - 4) % 8) + b)
  have hcol := tblInverse_col_lt hp
  have htbl := tbl_tblInverse hp
  have hinvLin : invLin i b = 7 * ((i - 4) / 8) + (tblInverse (7 * ((i - 4) % 8) + b)).2 := rfl
  generalize tblInverse (7 * ((i - 4) % 8) + b) = rc at *
  have hl : linCol (invLin i b % 128) (8 * (invLin i b / 128) + rc.1) = invLin i b := by
    unfold linCol stripeIndex; omega
  have hperm : permutedBit (invLin i b % 128) (8 * (invLin i b / 128) + rc.1) =
      7 * ((i - 4) % 8) + b := by
    rw [← htbl, permutedBit, rowInStripe, colInGroup, hl]
    congr 1 <;> omega
  unfold byteOffset bitOffset colGroup
  rw [hperm, hl]
  omega

theorem cellCoord_eq_some_iff {i b x y : Nat} (hi : 4 ≤ i) (hb : b < 7) :
    cellCoord i b = some (x, y) ↔ x < 128 ∧ y < 64 ∧ byteOffset x y = i ∧ bitOffset x y = b := by
  constructor
  · exact remap_of_cellCoord hi hb
  · rintro ⟨hx, hy, rfl, rfl⟩
    exact cellCoord_remap hx hy

/-- The linear column passes 1023 only in the last group, and there from column 2 on: in the low bits of
its byte 2 (`40_remap_plot.md` R94). -/
theorem cellCoord_eq_none_iff {i b : Nat} (hi : 4 ≤ i) (hi' : i ≤ 1174) (hb : b < 7) :
    cellCoord i b = none ↔ i = 1174 ∧ b ≤ 4 := by
  rw [cellCoord_eq, ite_eq_left_iff]
  simp only [reduceCtorEq, imp_false, not_not]
  rw [invLin, tblInverse_place hb]
  omega

/-- Settles O9: the inverse answers exactly the coordinate of the cell, and nothing past column 1023. -/
theorem remapInverse : Obligations.RemapInverse := by
  unfold Obligations.RemapInverse
  intro i b hi hi' hb
  exact ⟨cellCoord_eq_none_iff hi hi' (by omega), fun x y => cellCoord_eq_some_iff hi (by omega)⟩

/-- Settles O7: a position is a cell exactly where the inverse has an answer. -/
theorem remapInjective : Obligations.RemapInjective := by
  unfold Obligations.RemapInjective
  refine ⟨fun x y x' y' hx _ hx' _ => remap_injective hx hx', fun i b hi hi' hb => ?_⟩
  rw [← cellCoord_eq_none_iff hi (by omega) hb, ← ne_eq, Option.ne_none_iff_exists']
  simp only [Prod.exists, cellCoord_eq_some_iff hi hb]

end Sys2Proof.Machine

/-! ### PLOT -/

namespace Sys2Proof.Machine

/-- PLOT completes from every state, with every field of the state it leaves. -/
theorem exec_plot_executed (x y : BitVec 8) (c : Bool) (s : State) :
    ∃ t, exec (.plot x y c) s = .next t ∧ Executed (.plot x y c) s t :=
  exec_wellFormed rfl s

theorem Executed.sameSb_of_plot {x y : BitVec 8} {c : Bool} {s t : State}
    (h : Executed (.plot x y c) s t) : SameSb s t :=
  congrFun (h.sbGet_eq fun _ _ => nofun)

theorem Executed.endsOk {i : Instr} {s t : State} (h : Executed i s t) : EndsOk s t := by
  simp [EndsOk, h.stat]

/-- Settles O10: PLOT is the procedure `plot` on WB, by cases on whether the coordinate is in the grid. -/
theorem plotCompletes : Obligations.PlotCompletes := by
  unfold Obligations.PlotCompletes
  intro x y c s
  obtain ⟨t, ht, hex⟩ := exec_plot_executed x y c s
  have hwb : t.wb = plot x.toNat y.toNat c s.wb := hex.wb
  refine ⟨t, ht, ?_, hex.sameSb_of_plot, hex.tx, hex.endsOk, hex.host⟩
  by_cases hout : 128 ≤ x.toNat ∨ 64 ≤ y.toNat
  · rw [if_pos hout]
    intro i
    rw [hwb, plot_outside c s.wb hout]
  · have hx : x.toNat < 128 := by omega
    have hy : y.toNat < 64 := by omega
    rw [if_neg hout]
    refine ⟨four_le_byteOffset _ _, Nat.le_of_lt_succ (byteOffset_lt hx hy),
      Nat.le_of_lt_succ (bitOffset_lt _ _), ?_, fun i hi => ?_⟩
    · rw [hwb, wbGet_plot c s.wb _ hx hy, if_pos rfl]; rfl
    · rw [hwb, wbGet_plot c s.wb _ hx hy, if_neg hi]

/-- Settles O14: no cell lies in the header, in a bit 7 or in the low bits of the last byte. -/
theorem plotNeverLeavesItsCell : Obligations.PlotNeverLeavesItsCell := by
  unfold Obligations.PlotNeverLeavesItsCell
  intro x y c s
  obtain ⟨t, ht, hex⟩ := exec_plot_executed x y c s
  have hwb : t.wb = plot x.toNat y.toNat c s.wb := hex.wb
  have hseven : ∀ i, (wbGet t.wb i).getLsbD 7 = (wbGet s.wb i).getLsbD 7 := by
    rw [hwb]
    exact wbGet_plot_bit_seven _ _ c s.wb
  refine ⟨t, ht, ?_, hseven, ?_, hex.sameSb_of_plot, hex.tx, hex.endsOk.1,
    fun hclean i hlo hhi => (hseven i).trans (hclean i hlo hhi)⟩
  · rw [hwb, wbHeader_plot]
  · rw [hwb, wbGet_plot_last_low]

/-! ### Two plots -/

/-- The last of two plots at one coordinate wins (`40_remap_plot.md` R91). -/
theorem wbGet_plot_plot (x y : Nat) (a b : Bool) (wb : Memory) (i : Nat) :
    wbGet (plot x y b (plot x y a wb)) i = wbGet (plot x y b wb) i := by
  refine BitVec.eq_of_getLsbD_eq fun j _ => ?_
  simp only [wbGet_plot_getLsbD]
  by_cases hcell : IsCell i j x y
  · rw [if_pos hcell, if_pos hcell]
  · rw [if_neg hcell, if_neg hcell, if_neg hcell]

/-- Clearing a pixel changes nothing exactly when its bit is 0 already. -/
theorem plot_false_same_iff {x y : Nat} (wb : Memory) (hx : x < 128) (hy : y < 64) :
    (∀ i, wbGet (plot x y false wb) i = wbGet wb i) ↔
      (wbGet wb (byteOffset x y)).getLsbD (bitOffset x y) = false := by
  constructor
  · intro h
    rw [← h, wbGet_plot_getLsbD, if_pos ⟨hx, hy, rfl, rfl⟩]
  · intro h i
    refine BitVec.eq_of_getLsbD_eq fun j _ => ?_
    rw [wbGet_plot_getLsbD]
    split_ifs with hcell
    · obtain ⟨-, -, rfl, rfl⟩ := hcell
      exact h.symm
    · rfl

/-- Settles O11: setting and then clearing is clearing, since the last plot wins. -/
theorem plotSameCoordinate : Obligations.PlotSameCoordinate := by
  unfold Obligations.PlotSameCoordinate
  refine ⟨fun x y c wb hx hy i j => ?_, wbGet_plot_plot, fun x y wb hx hy => ?_⟩
  · simp only [wbGet_plot_getLsbD, IsCell, hx, hy, true_and]
  · simp only [wbGet_plot_plot]
    exact plot_false_same_iff wb hx hy

/-- Settles O12: a list of two plots may be permuted (O13). -/
theorem plotsCommute : Obligations.PlotsCommute := by
  unfold Obligations.PlotsCommute
  intro x₁ y₁ c₁ x₂ y₂ c₂ wb hne
  exact plotOrderUnobservable [(x₁, y₁, c₁), (x₂, y₂, c₂)] [(x₂, y₂, c₂), (x₁, y₁, c₁)] wb
    (.swap ..) (by simpa using hne)

/-! ### Words of the spec -/

/-- A word that a well-formed command encodes to decodes to that command. -/
theorem decode_of_encodeCmd {w : CmdWord} {i : Instr} (hwf : i.wellFormed = true)
    (h : encodeCmd i = w) : decode w = .ok i := (decode_eq_ok_iff_encodeCmd hwf).2 h

/-- Settles O34: each word is the encoding of the command written beside it. -/
theorem wordsOfTheSpecDecode : Obligations.WordsOfTheSpecDecode := by
  unfold Obligations.WordsOfTheSpecDecode
  exact ⟨decode_of_encodeCmd rfl rfl, decode_of_encodeCmd rfl rfl, decode_of_encodeCmd rfl rfl,
    decode_of_encodeCmd rfl rfl, decode_of_encodeCmd rfl rfl, decode_of_encodeCmd rfl rfl,
    decode_of_encodeCmd rfl rfl, decode_of_encodeCmd rfl rfl, decode_of_encodeCmd rfl rfl⟩

end Sys2Proof.Machine

/-! ### The paint pass, bit by bit -/

namespace Sys2Proof.Machine

/-- A loop whose passes can only bring `P` about has brought it about exactly when one of them did or it
held before. -/
theorem foldl_iff_exists {α β : Type} {P : β → Prop} {Q : α → Prop} {f : β → α → β}
    (hf : ∀ m a, P (f m a) ↔ Q a ∨ P m) (l : List α) (m : β) :
    P (l.foldl f m) ↔ (∃ a ∈ l, Q a) ∨ P m := by
  induction l generalizing m with
  | nil => simp
  | cons a l ih => rw [List.foldl_cons, ih, hf, List.exists_mem_cons_iff, or_assoc, or_left_comm]

/-- Visible pixel `(x, y)` of the source is lit and is painted on bit `j` of `WB[i]`
(`41_encode.md` R103). -/
def Paints (src : Nat → Byte) (i j x y : Nat) : Prop :=
  sourcePixel src x y = true ∧ IsCell i j (x + 4) (y + 4)

theorem paintRow_getLsbD_iff (src : Nat → Byte) (y : Nat) (wb : Memory) (i j : Nat) :
    (wbGet (paintRow src y wb) i).getLsbD j = true ↔
      (∃ x ∈ List.range 120, Paints src i j x y) ∨ (wbGet wb i).getLsbD j = true := by
  refine foldl_iff_exists (P := fun m => (wbGet m i).getLsbD j = true) (fun m x => ?_) _ wb
  by_cases hlit : sourcePixel src x y = true
  · rw [if_pos hlit, wbGet_plot_getLsbD]
    by_cases hcell : IsCell i j (x + 4) (y + 4)
    · rw [if_pos hcell]
      exact iff_of_true rfl (.inl ⟨hlit, hcell⟩)
    · rw [if_neg hcell]
      exact (or_iff_right fun h => hcell h.2).symm
  · rw [if_neg hlit]
    exact (or_iff_right fun h => hlit h.1).symm

theorem paintPass_getLsbD_iff (src : Nat → Byte) (wb : Memory) (i j : Nat) :
    (wbGet (paintPass src wb) i).getLsbD j = true ↔
      (∃ y ∈ List.range 56, ∃ x ∈ List.range 120, Paints src i j x y) ∨
        (wbGet wb i).getLsbD j = true :=
  foldl_iff_exists (P := fun m => (wbGet m i).getLsbD j = true)
    (fun m y => paintRow_getLsbD_iff src y m i j) _ wb

/-- The paint pass starts from zeros: the clear pass sets no bit (`41_encode.md` R102). -/
theorem clearPass_zeroFill_getLsbD (wb : Memory) {i : Nat} (hi : i < 1175) (j : Nat) :
    (wbGet (clearPass (zeroFill wb)) i).getLsbD j = false := by
  refine clearPass_keeps (P := fun m => (wbGet m i).getLsbD j = false) (fun m x y hm => ?_) ?_
  · rw [wbGet_plot_getLsbD, hm, ite_self]
  · rw [wbGet_zeroFill, if_pos hi]; exact BitVec.getLsbD_zero

/-- What ENCODE leaves, bit by bit: a bit is set exactly when a lit visible pixel is painted on it
(`41_encode.md` R105). -/
theorem encodeBitmap_getLsbD_iff (src : Nat → Byte) (wb : Memory) {i : Nat} (hi : i < 1175) (j : Nat) :
    (wbGet (encodeBitmap src wb) i).getLsbD j = true ↔
      ∃ x y, x < 120 ∧ y < 56 ∧ Paints src i j x y := by
  rw [encodeBitmap, paintPass_getLsbD_iff, clearPass_zeroFill_getLsbD wb hi]
  simp only [List.mem_range, Bool.false_eq_true, or_false]
  exact ⟨fun ⟨y, hy, x, hx, h⟩ => ⟨x, y, hx, hy, h⟩, fun ⟨x, y, hx, hy, h⟩ => ⟨y, hy, x, hx, h⟩⟩

/-! ### The closed form of ENCODE -/

/-- A source pixel is one bit of its byte, counted from the most significant one (`20_memory.md` R42). -/
theorem sourcePixel_eq (src : Nat → Byte) (x y : Nat) :
    sourcePixel src x y = (src (sourceAddr x y)).getLsbD (7 - x % 8) := by
  have hone : (1 : Byte) = 1#8 := rfl
  rw [sourcePixel, hone, BitVec.and_one_eq_setWidth_ofBool_getLsbD, BitVec.getLsbD_ushiftRight,
    Nat.add_zero]
  cases (src (sourceAddr x y)).getLsbD (7 - x % 8) <;> decide

/-- What ENCODE leaves at a cell: the pixel painted there, and 0 on the border (`41_encode.md` R105). -/
theorem encodeBitmap_cell (src : Nat → Byte) (wb : Memory) {gx gy : Nat} (hgx : gx < 128)
    (hgy : gy < 64) :
    (wbGet (encodeBitmap src wb) (byteOffset gx gy)).getLsbD (bitOffset gx gy) =
      (decide (4 ≤ gx ∧ gx ≤ 123 ∧ 4 ≤ gy ∧ gy ≤ 59) && sourcePixel src (gx - 4) (gy - 4)) := by
  rw [Bool.eq_iff_iff, encodeBitmap_getLsbD_iff src wb (byteOffset_lt hgx hgy), Bool.and_eq_true,
    decide_eq_true_eq]
  constructor
  · rintro ⟨x, y, hx, hy, hlit, hcell⟩
    obtain ⟨rfl, rfl⟩ := IsCell.coord_unique ⟨hgx, hgy, rfl, rfl⟩ hcell
    exact ⟨by omega, hlit⟩
  · rintro ⟨hin, hlit⟩
    refine ⟨gx - 4, gy - 4, by omega, by omega, hlit, by omega, by omega, ?_⟩
    rw [Nat.sub_add_cancel (by omega), Nat.sub_add_cancel (by omega)]
    exact ⟨rfl, rfl⟩

/-- What ENCODE leaves at a bit that is no cell: 0 (`41_encode.md` R105). -/
theorem encodeBitmap_of_no_cell (src : Nat → Byte) (wb : Memory) {i j : Nat} (hi : i < 1175)
    (h : ∀ x y, ¬ IsCell i j x y) : (wbGet (encodeBitmap src wb) i).getLsbD j = false := by
  rw [← Bool.not_eq_true, encodeBitmap_getLsbD_iff src wb hi]
  rintro ⟨x, y, -, -, -, hcell⟩
  exact h _ _ hcell

theorem not_isCell_header {i : Nat} (hi : i < 4) (j x y : Nat) : ¬ IsCell i j x y := by
  rintro ⟨-, -, hbyte, -⟩
  have := four_le_byteOffset x y
  omega

theorem not_isCell_bit_seven (i x y : Nat) : ¬ IsCell i 7 x y := by
  rintro ⟨-, -, -, hbit⟩
  have := bitOffset_lt x y
  omega

theorem not_isCell_last_low {j : Nat} (hj : j < 5) (x y : Nat) : ¬ IsCell 1174 j x y := by
  rintro ⟨hx, hy, hbyte, hbit⟩
  have := five_le_bitOffset_of_last hx hy hbyte.symm
  omega

theorem wbHeader_encodeBitmap (src : Nat → Byte) (wb : Memory) :
    wbHeader (encodeBitmap src wb) = [0, 0, 0, 0] := by
  have hzero : ∀ i < 4, wbGet (encodeBitmap src wb) i = 0 := fun i hi =>
    BitVec.eq_of_getLsbD_eq fun j _ =>
      (encodeBitmap_of_no_cell src wb (by omega) (not_isCell_header hi j)).trans
        BitVec.getLsbD_zero.symm
  simp [wbHeader, hzero]

theorem encodeBitmap_last_low (src : Nat → Byte) (wb : Memory) :
    (wbGet (encodeBitmap src wb) 1174).extractLsb' 0 5 = 0 := by
  refine BitVec.eq_of_getLsbD_eq fun j hj => ?_
  rw [BitVec.getLsbD_extractLsb', Nat.zero_add,
    encodeBitmap_of_no_cell src wb (by decide) (not_isCell_last_low hj)]
  simp

/-- Settles O17: the loops set the cells of the lit pixels and no other bit. -/
theorem encodeClosedForm : Obligations.EncodeClosedForm := by
  unfold Obligations.EncodeClosedForm
  intro s
  obtain ⟨t, ht, hex⟩ := exec_wellFormed (i := .encode) rfl s
  have hwb : t.wb = encodeBitmap (sbGet s) s.wb := hex.wb
  refine ⟨t, ht, fun gx gy hgx hgy => ?_, fun i b hi hno => ?_, ?_, fun i hi => ?_, ?_,
    congrFun (hex.sbGet_eq fun _ _ => nofun), hex.tx, hex.endsOk, hex.host⟩ <;> rw [hwb]
  · rw [encodeBitmap_cell _ _ hgx hgy, sourcePixel_eq, sourceAddr]
    by_cases hin : 4 ≤ gx ∧ gx ≤ 123 ∧ 4 ≤ gy ∧ gy ≤ 59
    · rw [show 55 - (gy - 4) = 59 - gy by omega]
    · rw [decide_eq_false hin, Bool.false_and, Bool.false_and]
  · exact encodeBitmap_of_no_cell _ _ hi fun x y ⟨hx, hy, hbyte, hbit⟩ =>
      hno x y hx hy ⟨hbyte.symm, hbit.symm⟩
  · exact wbHeader_encodeBitmap _ _
  · exact encodeBitmap_of_no_cell _ _ hi (not_isCell_bit_seven i)
  · exact encodeBitmap_last_low _ _

/-! ### What ENCODE and ENCCLR read -/

/-- ENCODE depends on the 6720 source pixels alone, not on what WB held (`41_encode.md` R107, R108). -/
theorem encodeBitmap_congr {src src' : Nat → Byte}
    (h : ∀ x y, x < 120 → y < 56 → sourcePixel src x y = sourcePixel src' x y) (wb wb' : Memory)
    {i : Nat} (hi : i < 1175) :
    wbGet (encodeBitmap src wb) i = wbGet (encodeBitmap src' wb') i := by
  refine BitVec.eq_of_getLsbD_eq fun j _ => ?_
  rw [Bool.eq_iff_iff, encodeBitmap_getLsbD_iff src wb hi, encodeBitmap_getLsbD_iff src' wb' hi]
  unfold Paints
  refine exists_congr fun x => exists_congr fun y => and_congr_right fun hx =>
    and_congr_right fun hy => ?_
  rw [h x y hx hy]

theorem sourcePixel_congr {src src' : Nat → Byte} {x y : Nat}
    (h : src (sourceAddr x y) = src' (sourceAddr x y)) :
    sourcePixel src x y = sourcePixel src' x y := by
  rw [sourcePixel_eq, sourcePixel_eq, h]

/-- The addresses the paint pass forms (`41_encode.md` R108). -/
theorem sourceAddr_eq_iff (a : Nat) : (∃ x y, x < 120 ∧ y < 56 ∧ sourceAddr x y = a) ↔
    ∃ j k, j < 56 ∧ k < 15 ∧ a = 16 * j + k := by
  unfold sourceAddr
  constructor
  · rintro ⟨x, y, hx, hy, rfl⟩
    exact ⟨55 - y, x / 8, by omega, by omega, by omega⟩
  · rintro ⟨j, k, hj, hk, rfl⟩
    exact ⟨8 * k, 55 - j, by omega, by omega, by omega⟩

theorem sourceAddr_le (y : Nat) {x : Nat} (hx : x < 120) : sourceAddr x y ≤ 894 := by
  unfold sourceAddr; omega

/-- Two ENCODEs leave the same WB where their sources agree on the bytes that are read. -/
theorem exec_encode_congr {s u : State}
    (h : ∀ x y, x < 120 → y < 56 → sbGet s (sourceAddr x y) = sbGet u (sourceAddr x y)) :
    ∃ t v, exec .encode s = .next t ∧ exec .encode u = .next v ∧
      ∀ i, i < 1175 → wbGet t.wb i = wbGet v.wb i := by
  obtain ⟨t, ht, htwb, -⟩ := exec_encode_next s
  obtain ⟨v, hv, hvwb, -⟩ := exec_encode_next u
  refine ⟨t, v, ht, hv, fun i hi => ?_⟩
  rw [htwb, hvwb]
  exact encodeBitmap_congr (fun x y hx hy => sourcePixel_congr (h x y hx hy)) _ _ hi

/-- Settles O18: both start from zeros, and ENCODE reads SB below 896 only. -/
theorem encodeFresh : Obligations.EncodeFresh := by
  unfold Obligations.EncodeFresh
  constructor
  · intro s u h
    exact exec_encode_congr fun x y hx _ => h _ (by have := sourceAddr_le y hx; omega)
  · intro s u
    obtain ⟨t, ht, htwb, -⟩ := exec_encclr_next s
    obtain ⟨v, hv, hvwb, -⟩ := exec_encclr_next u
    refine ⟨t, v, ht, hv, fun i hi => ?_⟩
    rw [htwb, hvwb]
    exact encodeBitmap_congr (fun _ _ _ _ => rfl) _ _ hi

/-- Source column `c` of source row `j` is painted at grid `(c + 4, 59 - j)` (`41_encode.md` R104). -/
theorem encodeBitmap_source (src : Nat → Byte) (wb : Memory) {j c : Nat} (hj : j < 56) (hc : c < 120) :
    (wbGet (encodeBitmap src wb) (byteOffset (c + 4) (59 - j))).getLsbD (bitOffset (c + 4) (59 - j)) =
      (src (16 * j + c / 8)).getLsbD (7 - c % 8) := by
  rw [encodeBitmap_cell src wb (by omega) (by omega), decide_eq_true (by omega), Bool.true_and,
    sourcePixel_eq, sourceAddr, Nat.add_sub_cancel, show 55 - (59 - j - 4) = j by omega,
    Nat.mul_comm]

/-- Settles O20: it is the closed form, read at the cell of a source pixel. -/
theorem encodeOrientation : Obligations.EncodeOrientation := by
  unfold Obligations.EncodeOrientation
  intro s j c hj hc
  obtain ⟨t, ht, hwb, -⟩ := exec_encode_next s
  exact ⟨t, ht, hwb ▸ encodeBitmap_source (sbGet s) s.wb hj hc⟩

/-- Settles O19: the paint pass forms just these addresses, and each of their bits is painted on a cell
of its own. -/
theorem sourceBytesRead : Obligations.SourceBytesRead := by
  unfold Obligations.SourceBytesRead
  refine ⟨sourceAddr_eq_iff, fun x y hx _ => sourceAddr_le y hx, rfl, rfl, fun s u h => ?_,
    fun s u j k b hj hk hb hne => ?_⟩
  · refine exec_encode_congr fun x y hx hy => ?_
    obtain ⟨j, k, hj, hk, ha⟩ := (sourceAddr_eq_iff _).1 ⟨x, y, hx, hy, rfl⟩
    exact ha ▸ h j k hj hk
  · obtain ⟨t, ht, htwb, -⟩ := exec_encode_next s
    obtain ⟨v, hv, hvwb, -⟩ := exec_encode_next u
    have hpainted (src : Nat → Byte) (wb : Memory) :=
      encodeBitmap_source src wb hj (show 8 * k + (7 - b) < 120 by omega)
    rw [show (8 * k + (7 - b)) / 8 = k by omega,
      show 7 - (8 * k + (7 - b)) % 8 = b by omega] at hpainted
    refine ⟨t, v, ht, hv, _, byteOffset_lt (x := 8 * k + (7 - b) + 4) (y := 59 - j) (by omega)
      (by omega), fun hsame => hne ?_⟩
    rw [← hpainted (sbGet s) s.wb, ← hpainted (sbGet u) u.wb, ← htwb, ← hvwb, hsame]

/-! ### ENCCLR -/

/-- ENCODE of an all-zero source leaves zeros (`41_encode.md` R106). -/
theorem encodeBitmap_zero (wb : Memory) {i : Nat} (hi : i < 1175) :
    wbGet (encodeBitmap (fun _ => 0) wb) i = 0#8 := by
  refine BitVec.eq_of_getLsbD_eq fun j _ => ?_
  rw [BitVec.getLsbD_zero, ← Bool.not_eq_true, encodeBitmap_getLsbD_iff _ wb hi]
  rintro ⟨x, y, -, -, hlit, -⟩
  simp [sourcePixel_eq] at hlit

/-- Settles O22: ENCCLR paints nothing, and an all-zero SB has the same pixels. -/
theorem encclrCompletes : Obligations.EncclrCompletes := by
  unfold Obligations.EncclrCompletes
  refine ⟨decode_of_encodeCmd rfl rfl, fun s => ?_⟩
  obtain ⟨t, ht, hex⟩ := exec_wellFormed (i := .encclr) rfl s
  have hwb : t.wb = encodeBitmap (fun _ => 0) s.wb := hex.wb
  refine ⟨t, ht, fun i hi => hwb ▸ encodeBitmap_zero s.wb hi,
    congrFun (hex.sbGet_eq fun _ _ => nofun), hex.tx, hex.endsOk, hex.host, fun hsb => ?_⟩
  obtain ⟨u, hu, huwb, -⟩ := exec_encode_next s
  refine ⟨u, hu, fun i hi => ?_⟩
  rw [huwb, hwb]
  refine encodeBitmap_congr (fun x y hx _ => sourcePixel_congr (hsb _ ?_)) _ _ hi
  have := sourceAddr_le y hx
  omega

/-- With one lit pixel, ENCODE sets its cell and nothing else (`41_encode.md` R109). -/
theorem encodeBitmap_single {src : Nat → Byte} {x y : Nat} (hx : x < 120) (hy : y < 56)
    (honly : ∀ x' y', x' < 120 → y' < 56 → (sourcePixel src x' y' = true ↔ x' = x ∧ y' = y))
    (wb : Memory) {i : Nat} (hi : i < 1175) (j : Nat) :
    (wbGet (encodeBitmap src wb) i).getLsbD j = true ↔
      i = byteOffset (x + 4) (y + 4) ∧ j = bitOffset (x + 4) (y + 4) := by
  rw [encodeBitmap_getLsbD_iff src wb hi]
  constructor
  · rintro ⟨x', y', hx', hy', hlit, -, -, hcell⟩
    obtain ⟨rfl, rfl⟩ := (honly x' y' hx' hy').1 hlit
    exact hcell
  · intro hcell
    exact ⟨x, y, hx, hy, (honly x y hx hy).2 ⟨rfl, rfl⟩, by omega, by omega, hcell⟩

/-- Two PLOTs after a command, as the two plots on the WB it left. -/
theorem execAll_plot_plot {i : Instr} {s u : State} (h : exec i s = .next u) (x y : BitVec 8)
    (a b : Bool) : ∃ t, execAll [i, .plot x y a, .plot x y b] s = .next t ∧
      t.wb = plot x.toNat y.toNat b (plot x.toNat y.toNat a u.wb) := by
  obtain ⟨v, hv, hvex⟩ := exec_plot_executed x y a u
  obtain ⟨t, ht, htex⟩ := exec_plot_executed x y b v
  refine ⟨t, ?_, ?_⟩
  · rw [execAll_cons h, execAll_cons hv, execAll_cons ht, execAll]
  · calc t.wb = plot x.toNat y.toNat b v.wb := htex.wb
      _ = _ := congrArg _ hvex.wb

/-- Settles O21: ENCCLR leaves zeros, so the difference is what ENCODE sets, and setting and clearing a
bit restores it. -/
theorem encodeSinglePixel : Obligations.EncodeSinglePixel := by
  unfold Obligations.EncodeSinglePixel
  refine ⟨fun s x y hx hy honly => ?_, fun s gx gy hgx hgy => ?_, by decide⟩
  · obtain ⟨t, ht, htwb, -⟩ := exec_encode_next s
    obtain ⟨u, hu, huwb, -⟩ := exec_encclr_next s
    refine ⟨t, u, ht, hu, fun i b hi => ?_⟩
    rw [htwb, huwb, encodeBitmap_zero s.wb hi, BitVec.getLsbD_zero, Bool.ne_false_iff]
    refine encodeBitmap_single hx hy (fun x' y' hx' hy' => ?_) s.wb hi b
    rw [sourcePixel_eq]
    exact honly x' y' hx' hy'
  · obtain ⟨u, hu, huwb, -⟩ := exec_encclr_next s
    obtain ⟨t, ht, htwb⟩ := execAll_plot_plot hu gx gy true false
    refine ⟨u, t, hu, ht, fun i => ?_⟩
    have hdark : (wbGet u.wb (byteOffset gx.toNat gy.toNat)).getLsbD (bitOffset gx.toNat gy.toNat) =
        false := by
      rw [huwb, encodeBitmap_zero s.wb (byteOffset_lt hgx hgy), BitVec.getLsbD_zero]
    rw [htwb, wbGet_plot_plot]
    exact (plot_false_same_iff u.wb hgx hgy).2 hdark i

/-! ### SBW -/

/-- Settles O15: in range SBW is one write to SB, and past it the rejection. -/
theorem sbwCompletes : Obligations.SbwCompletes := by
  unfold Obligations.SbwCompletes
  intro addr data s
  by_cases hrange : addr.toNat < 896
  · obtain ⟨t, ht, hex⟩ := exec_wellFormed (i := .sbw addr data) (decide_eq_true hrange) s
    refine ⟨t, ht, ?_⟩
    rw [if_pos hrange]
    refine ⟨?_, fun a ha => ?_, hex.sameWb_of_sbw, hex.tx, hex.endsOk, hex.host⟩
    · rw [hex.sbGet_sbw, if_pos rfl]
    · rw [hex.sbGet_sbw, if_neg ha]
  · refine ⟨_, exec_sbw_outOfRange data s hrange, ?_⟩
    rw [if_neg hrange]
    exact rejected_raise s

end Sys2Proof.Machine

/-! ### The message of FRAME -/

namespace Sys2Proof.Machine

@[simp] theorem wbHeader_writeHeader (wb : Memory) : wbHeader (writeHeader wb) = [0, 7, 0, 127] := by
  simp [wbHeader, wbGet_writeHeader]

theorem wbGet_writeHeader_congr {wb wb' : Memory} {i : Nat} (h : 4 ≤ i → wbGet wb i = wbGet wb' i) :
    wbGet (writeHeader wb) i = wbGet (writeHeader wb') i := by
  simp only [wbGet_writeHeader]
  split_ifs with h3 h2 h1 h0
  case neg => exact h (by omega)
  all_goals rfl

/-- The buffer is its header and then its data region (`10_state.md` R22). -/
theorem wbBytes_eq_header_append (wb : Memory) : wbBytes wb = wbHeader wb ++ (wbBytes wb).drop 4 := by
  have hheader : (wbBytes wb).take 4 = wbHeader wb := by
    rw [wbBytes, ← List.map_take, List.take_range]
    rfl
  rw [← hheader, List.take_append_drop]

/-- The bytes of the data region of WB are those at the indices 4 to 1174 (`10_state.md` R22). -/
theorem exists_index_of_mem_data {wb : Memory} {v : Byte} (hv : v ∈ (wbBytes wb).drop 4) :
    ∃ i, 4 ≤ i ∧ i < 1175 ∧ wbGet wb i = v := by
  obtain ⟨k, hk, rfl⟩ := List.mem_iff_getElem.1 hv
  rw [List.length_drop, wbBytes_length] at hk
  exact ⟨4 + k, by omega, by omega, by rw [List.getElem_drop, wbBytes_getElem]⟩

theorem drop_four_wbBytes_congr {wb wb' : Memory}
    (h : ∀ i, 4 ≤ i → i < 1175 → wbGet wb i = wbGet wb' i) :
    (wbBytes wb).drop 4 = (wbBytes wb').drop 4 := by
  refine List.ext_getElem (by simp) fun k hk _ => ?_
  rw [List.length_drop, wbBytes_length] at hk
  simp only [List.getElem_drop, wbBytes_getElem]
  exact h (4 + k) (by omega) (by omega)

/-- The message is the opening, the length bytes, WB with the new header, and the terminator
(`42_frame.md` R123). -/
theorem frameMessage_eq (wb : Memory) :
    frameMessage wb = [240, 71, 127, 67, 14, 9, 23] ++ wbBytes (writeHeader wb) ++ [247] := by
  rw [wbBytes_eq_header_append, wbHeader_writeHeader,
    drop_four_wbBytes_congr fun _ hi _ => wbGet_writeHeader_of_four_le wb hi]
  rfl

theorem frameMessage_take (wb : Memory) :
    (frameMessage wb).take 11 = [240, 71, 127, 67, 14, 9, 23, 0, 7, 0, 127] := rfl

/-- `WB[i]` stands at offset `7 + i` of the message (`42_frame.md` R123). -/
theorem frameMessage_getElem? (wb : Memory) {i : Nat} (hi : i < 1175) :
    (frameMessage wb)[7 + i]? = some (wbGet (writeHeader wb) i) := by
  have hi' : i < (wbBytes (writeHeader wb)).length := by simpa using hi
  rw [frameMessage_eq, List.append_assoc, List.getElem?_append_right (by simp)]
  calc _ = (wbBytes (writeHeader wb) ++ [247])[i]? := by simp
    _ = some (wbGet (writeHeader wb) i) := by
      rw [List.getElem?_append_left hi', List.getElem?_eq_getElem hi', wbBytes_getElem]

theorem frameMessage_last (wb : Memory) : (frameMessage wb)[1182]? = some 247 := by
  have hlen : ([240, 71, 127, 67, 14, 9, 23] ++ wbBytes (writeHeader wb)).length = 1182 := by simp
  rw [frameMessage_eq, ← hlen, List.getElem?_concat_length]

/-- Two messages differ only where the data regions they were made from differ. -/
theorem frameMessage_getElem?_congr {wb wb' : Memory} {k : Nat}
    (h : ∀ i, 4 ≤ i → k = 7 + i → wbGet wb i = wbGet wb' i) :
    (frameMessage wb)[k]? = (frameMessage wb')[k]? := by
  by_cases hlow : k < 11
  · rw [← List.getElem?_take_of_lt hlow, frameMessage_take, ← frameMessage_take wb',
      List.getElem?_take_of_lt hlow]
  · obtain ⟨i, rfl⟩ := Nat.exists_eq_add_of_le (show 7 ≤ k by omega)
    by_cases hi : i < 1175
    · rw [frameMessage_getElem? wb hi, frameMessage_getElem? wb' hi,
        wbGet_writeHeader_congr fun h4 => h i h4 rfl]
    · obtain rfl | hend : i = 1175 ∨ 1183 ≤ 7 + i := by omega
      · rw [frameMessage_last, frameMessage_last]
      · rw [List.getElem?_eq_none (by simpa), List.getElem?_eq_none (by simpa)]

/-- A message depends on the data region of WB only. -/
theorem frameMessage_congr {wb wb' : Memory} (h : ∀ i, 4 ≤ i → wbGet wb i = wbGet wb' i) :
    frameMessage wb = frameMessage wb' :=
  List.ext_getElem? fun _ => frameMessage_getElem?_congr fun i hi _ => h i hi

theorem toNat_lt_of_bit_seven {v : Byte} (h : v.getLsbD 7 = false) : v.toNat < 128 := by
  have hmsb : v.msb = false := (BitVec.msb_eq_getLsbD_last v).trans h
  have := BitVec.msb_eq_false_iff_two_mul_lt.1 hmsb
  omega

/-- A message is 7-bit clean between its first and last byte (`42_frame.md` R125). -/
theorem IsMessage.toNat_lt {m : List Byte} (h : IsMessage m) {k : Nat} {v : Byte} (hk : 1 ≤ k)
    (hk' : k ≤ 1181) (hv : m[k]? = some v) : v.toNat < 128 := by
  obtain ⟨data, hlen, hclean, rfl⟩ := h
  obtain ⟨j, rfl⟩ := Nat.exists_eq_add_of_le' hk
  have hmiddle : v ∈ [71, 127, 67, 14, 9, 23, 0, 7, 0, 127] ++ data := by
    have hj : j < ([71, 127, 67, 14, 9, 23, 0, 7, 0, 127] ++ data).length := by
      simp only [List.length_append, List.length_cons, List.length_nil, hlen]
      omega
    rw [List.cons_append, List.cons_append, List.getElem?_cons_succ,
      List.getElem?_append_left hj] at hv
    exact List.mem_of_getElem? hv
  have hopening : ∀ u ∈ ([71, 127, 67, 14, 9, 23, 0, 7, 0, 127] : List Byte), u.toNat < 128 := by decide
  rcases List.mem_append.1 hmiddle with hopen | hdata
  · exact hopening v hopen
  · exact toNat_lt_of_bit_seven (hclean v hdata)

/-- Where the data region of WB is 7-bit clean, FRAME appends a message (`10_state.md` R30,
`42_frame.md` R125). -/
theorem frameMessage_isMessage {wb : Memory}
    (h : ∀ i, 4 ≤ i → i < 1175 → (wbGet wb i).getLsbD 7 = false) : IsMessage (frameMessage wb) := by
  refine ⟨(wbBytes wb).drop 4, by simp, fun v hv => ?_, rfl⟩
  obtain ⟨i, hlo, hhi, rfl⟩ := exists_index_of_mem_data hv
  exact h i hlo hhi

/-- The message of a dark buffer (`42_frame.md` R128). -/
theorem frameMessage_of_zero {wb : Memory} (h : ∀ i, i < 1175 → wbGet wb i = 0) :
    frameMessage wb = [240, 71, 127, 67, 14, 9, 23, 0, 7, 0, 127] ++ List.replicate 1171 0 ++ [247] := by
  have hdata : (wbBytes wb).drop 4 = List.replicate 1171 0 := by
    refine List.eq_replicate_iff.2 ⟨by simp, fun v hv => ?_⟩
    obtain ⟨i, -, hi, rfl⟩ := exists_index_of_mem_data hv
    exact h i hi
  rw [frameMessage, hdata]
  rfl

/-! ### FRAME -/

/-- FRAME completes from every state, with every field of the state it leaves. -/
theorem exec_frame_executed (s : State) : ∃ t, exec .frame s = .next t ∧ Executed .frame s t :=
  exec_wellFormed rfl s

theorem Executed.frame_wb {s t : State} (h : Executed .frame s t) : t.wb = writeHeader s.wb := h.wb

theorem Executed.frame_tx {s t : State} (h : Executed .frame s t) : t.tx = s.tx ++ frameMessage s.wb :=
  h.tx

theorem Executed.frame_wbHeader {s t : State} (h : Executed .frame s t) :
    wbHeader t.wb = [0, 7, 0, 127] := by
  rw [h.frame_wb, wbHeader_writeHeader]

theorem Executed.frame_data {s t : State} (h : Executed .frame s t) {i : Nat} (hi : 4 ≤ i) :
    wbGet t.wb i = wbGet s.wb i := by
  rw [h.frame_wb, wbGet_writeHeader_of_four_le s.wb hi]

/-- Settles O25: the message is the new WB between the opening and the terminator. -/
theorem frameCompletes : Obligations.FrameCompletes := by
  unfold Obligations.FrameCompletes
  intro s
  obtain ⟨t, ht, hex⟩ := exec_frame_executed s
  refine ⟨t, frameMessage s.wb, ht, hex.frame_tx, frameMessage_length _, frameMessage_take _,
    fun i hi => ?_, frameMessage_last _, hex.frame_wbHeader, fun _ => hex.frame_data,
    congrFun (hex.sbGet_eq fun _ _ => nofun), hex.endsOk, hex.host⟩
  rw [hex.frame_wb, frameMessage_getElem? s.wb hi]

/-- Settles O27: the data region is 7-bit clean, and so are the constant bytes before it. -/
theorem messageSevenBitClean : Obligations.MessageSevenBitClean := by
  unfold Obligations.MessageSevenBitClean
  intro s hclean
  obtain ⟨t, ht, hex⟩ := exec_frame_executed s
  exact ⟨t, frameMessage s.wb, ht, hex.frame_tx, frameMessage_length _, rfl, frameMessage_last _,
    fun k v hk hk' hv => (frameMessage_isMessage hclean).toNat_lt hk hk' hv⟩

/-- Settles O28: WB has 1175 bytes, so FRAME meets the second case of `frame` only. -/
theorem frameOfAnyBuffer : Obligations.FrameOfAnyBuffer := by
  unfold Obligations.FrameOfAnyBuffer
  refine ⟨fun buf hlen => if_pos hlen, fun buf hlen => if_neg (not_not.2 hlen), fun s => ?_⟩
  obtain ⟨t, ht, hex⟩ := exec_frame_executed s
  exact ⟨t, frameMessage s.wb, ht, frame_wbBytes s.wb, hex.frame_tx, hex.endsOk.1⟩

/-- A second FRAME finds the header written already (`42_frame.md` R126). -/
theorem Executed.sameWb_of_frame_frame {s t u : State} (h : Executed .frame s t)
    (h' : Executed .frame t u) : SameWb t u := by
  intro i
  rw [h'.frame_wb, h.frame_wb]
  exact wbGet_writeHeader_congr (wbGet_writeHeader_of_four_le s.wb)

/-- Settles O26: FRAME leaves the data region, which alone decides the message, and a PLOT changes one
byte of it. -/
theorem frameTwice : Obligations.FrameTwice := by
  unfold Obligations.FrameTwice
  intro s
  obtain ⟨t, ht, hex⟩ := exec_frame_executed s
  refine ⟨t, frameMessage s.wb, ht, hex.frame_tx, hex.frame_wbHeader, fun _ => hex.frame_data, ?_,
    fun x y c hx hy => ?_⟩
  · obtain ⟨u, hu, huex⟩ := exec_frame_executed t
    refine ⟨u, hu, ?_, hex.sameWb_of_frame_frame huex⟩
    rw [huex.frame_tx, frameMessage_congr fun _ => hex.frame_data]
  · obtain ⟨v, hv, hvex⟩ := exec_plot_executed x y c t
    obtain ⟨u, hu, huex⟩ := exec_frame_executed v
    have hvwb : v.wb = plot x.toNat y.toNat c t.wb := hvex.wb
    have hvtx : v.tx = t.tx := hvex.tx
    refine ⟨v, u, frameMessage v.wb, hv, hu, hvtx ▸ huex.frame_tx, ?_, fun k hk => ?_⟩
    · rw [frameMessage_getElem? v.wb (byteOffset_lt hx hy),
        wbGet_writeHeader_of_four_le v.wb (four_le_byteOffset _ _)]
    · refine frameMessage_getElem?_congr fun i hi hki => ?_
      rw [hvwb, wbGet_plot c t.wb i hx hy, if_neg (by omega), hex.frame_data hi]

/-! ### RENDER and RENDCLR -/

/-- A command and then FRAME: the message is that of the WB the command left. -/
theorem execAll_frame {i : Instr} {s t : State} (h : exec i s = .next t) :
    ∃ u, execAll [i, .frame] s = .next u ∧ Executed .frame t u := by
  obtain ⟨u, hu, hex⟩ := exec_frame_executed t
  exact ⟨u, by rw [execAll_cons h, execAll_cons hu, execAll], hex⟩

/-- Settles O29: FRAME sends the data region that ENCODE left, and keeps it. -/
theorem renderSendsTheEncoding : Obligations.RenderSendsTheEncoding := by
  unfold Obligations.RenderSendsTheEncoding
  refine ⟨rfl, fun s => ?_⟩
  obtain ⟨t, ht, -, -, htx, -⟩ := exec_encode_next s
  obtain ⟨u, hu, hex⟩ := execAll_frame ht
  refine ⟨t, u, frameMessage t.wb, ht, hu, htx ▸ hex.frame_tx, frameMessage_length _,
    fun i hlo hhi => ⟨?_, hex.frame_data hlo⟩, hex.frame_wbHeader, hex.endsOk.1⟩
  rw [frameMessage_getElem? t.wb hhi, wbGet_writeHeader_of_four_le t.wb hlo]

/-- Settles O30: ENCCLR leaves zeros, so the message is its constant bytes around them. -/
theorem renderClearSendsTheClearMessage : Obligations.RenderClearSendsTheClearMessage := by
  unfold Obligations.RenderClearSendsTheClearMessage
  refine ⟨rfl, fun s => ?_, ?_, ?_⟩
  · obtain ⟨t, ht, hwb, -, htx, -⟩ := exec_encclr_next s
    obtain ⟨u, hu, hex⟩ := execAll_frame ht
    have hdark : ∀ i, i < 1175 → wbGet t.wb i = 0 := fun i hi => hwb ▸ encodeBitmap_zero s.wb hi
    exact ⟨u, hu, by rw [hex.frame_tx, htx, frameMessage_of_zero hdark]⟩
  · simp only [List.map_append, List.map_replicate, List.sum_append, List.sum_replicate]
    rfl
  · rw [← frameMessage_of_zero (wb := []) fun _ _ => rfl, frameMessage_length]

end Sys2Proof.Machine

namespace Sys2Proof.Machine

/-! ### After a rejection -/

/-- Settles O36: the step takes the word from the port, and a malformed word raises. -/
theorem stepRejectsTheMalformedWord : Obligations.StepRejectsTheMalformedWord := by
  unfold Obligations.StepRejectsTheMalformedWord
  intro s w rest e hport hdec
  refine ⟨(s.takeCommand rest).raise .malformedCommand, ?_, rejected_raise (s.takeCommand rest)⟩
  calc step s = runWord w (s.takeCommand rest) := step_command hport
    _ = .next ((s.takeCommand rest).raise .malformedCommand) := runWord_error _ hdec

/-- No command reads STAT but to keep its ESTK, so a rejection, which changes nothing else, is invisible
to the memories and the output of the next command (`60_exceptions.md` R140). -/
@[simp] theorem wbAfter_raise (i : Instr) (e : Err) (s : State) : wbAfter i (s.raise e) = wbAfter i s := rfl

@[simp] theorem sbAfter_raise (i : Instr) (e : Err) (s : State) : sbAfter i (s.raise e) = sbAfter i s := rfl

@[simp] theorem txAfter_raise (i : Instr) (e : Err) (s : State) : txAfter i (s.raise e) = txAfter i s := rfl

/-- Run after a rejection or without it, a word leaves the same WB, SB, TX and ERR. -/
theorem runWord_raise_agrees {w : CmdWord} {e : Err} {s u v : State}
    (hu : runWord w (s.raise e) = .next u) (hv : runWord w s = .next v) :
    u.wb = v.wb ∧ u.sb = v.sb ∧ u.tx = v.tx ∧ statErr u.stat = statErr v.stat := by
  obtain ⟨_, hdec, rfl⟩ | ⟨i, hdec, hv⟩ := runWord_cases hv
  · rw [runWord_error _ hdec] at hu
    cases hu
    simp
  · obtain ⟨u', hexec, hu'⟩ := exec_wellFormed (decode_wellFormed hdec) (s.raise e)
    rw [runWord_ok _ hdec, hexec] at hu
    cases hu
    simp [hu'.wb, hu'.sb, hu'.tx, hu'.stat, hv.wb, hv.sb, hv.tx, hv.stat]

/-- Settles O44: a rejection sets ESTK, no word clears it, and the next word sees nothing else of the
rejection. -/
theorem rejectionIsForgotten : Obligations.RejectionIsForgotten := by
  unfold Obligations.RejectionIsForgotten
  intro w₁ w₂ e s hdec
  obtain ⟨-, hestk, -⟩ := rejected_raise s
  obtain ⟨u, hu⟩ := runWord_next w₂ (s.raise .malformedCommand)
  obtain ⟨v, hv⟩ := runWord_next w₂ s
  obtain ⟨hwb, hsb, htx, herr⟩ := runWord_raise_agrees hu hv
  exact ⟨_, u, v, runWord_error s hdec, hu, hv, hwb, hsb, htx, herr, runWord_keeps_estk hu hestk⟩

end Sys2Proof.Machine

/-! ### Two commands in a row -/

namespace Sys2Proof.Machine

theorem execAll_pair {i j : Instr} {s u t : State} (hi : exec i s = .next u) (hj : exec j u = .next t) :
    execAll [i, j] s = .next t := by
  rw [execAll_cons hi, execAll_cons hj, execAll]

/-- Two SBW are two writes to SB (`41_encode.md` R100). -/
theorem execAll_sbw_sbw {a b : BitVec 10} (ha : a.toNat < 896) (hb : b.toNat < 896) (d e : Byte)
    (s : State) :
    execAll [.sbw a d, .sbw b e] s = .next (sbSet (sbSet s a.toNat d).complete b.toNat e).complete :=
  execAll_pair (exec_sbw_inRange d s ha) (exec_sbw_inRange e _ hb)

/-- Writes to different addresses of SB can be exchanged. -/
theorem sbGet_sbSet_comm {a b : Nat} (hab : a ≠ b) (d e : Byte) (s : State) (k : Nat) :
    sbGet (sbSet (sbSet s a d).complete b e) k = sbGet (sbSet (sbSet s b e).complete a d) k := by
  simp only [sbGet_sbSet, sbGet_complete]
  by_cases hk : k = a
  · rw [if_neg (hk ▸ hab), if_pos hk, if_pos hk]
  · rw [if_neg hk, if_neg hk]

/-- Settles O16: each SBW is one write to SB, and both orders write STAT alike. -/
theorem sbwOrder : Obligations.SbwOrder := by
  unfold Obligations.SbwOrder
  intro a b d e s ha hb
  refine ⟨_, execAll_sbw_sbw ha hb d e s, ?_, fun hne => ?_⟩
  · rw [sbGet_complete, sbGet_sbSet, if_pos rfl]
  · have hab : a.toNat ≠ b.toNat := fun h => hne (BitVec.eq_of_toNat_eq h)
    refine ⟨?_, _, execAll_sbw_sbw hb ha e d s, sbGet_sbSet_comm hab.symm e d s, fun _ => rfl, rfl, rfl,
      rfl, rfl, rfl⟩
    rw [sbGet_complete, sbGet_sbSet, if_neg hab, sbGet_complete, sbGet_sbSet, if_pos rfl]

/-! ### The clear pass -/

/-- The clear pass leaves the cells 0 and every other bit as it was (`70_reset_and_hazards.md` R163). -/
theorem clearPass_getLsbD_iff (wb : Memory) (i j : Nat) :
    (wbGet (clearPass wb) i).getLsbD j = false ↔
      (∃ y ∈ List.range 64, ∃ x ∈ List.range 128, IsCell i j x y) ∨ (wbGet wb i).getLsbD j = false := by
  refine foldl_iff_exists (P := fun m => (wbGet m i).getLsbD j = false) (fun m y => ?_) _ wb
  refine foldl_iff_exists (P := fun m => (wbGet m i).getLsbD j = false) (fun m x => ?_) _ m
  rw [wbGet_plot_getLsbD]
  by_cases hcell : IsCell i j x y
  · rw [if_pos hcell]
    exact iff_of_true rfl (.inl hcell)
  · rw [if_neg hcell]
    exact (or_iff_right hcell).symm

theorem clearPass_cell (wb : Memory) {x y : Nat} (hx : x < 128) (hy : y < 64) :
    (wbGet (clearPass wb) (byteOffset x y)).getLsbD (bitOffset x y) = false :=
  (clearPass_getLsbD_iff wb _ _).2
    (.inl ⟨y, List.mem_range.2 hy, x, List.mem_range.2 hx, hx, hy, rfl, rfl⟩)

/-- What no plot changes, the clear pass leaves as it was. -/
theorem clearPass_unchanged {α : Type} {f : Memory → α} (hplot : ∀ m x y, f (plot x y false m) = f m)
    (wb : Memory) : f (clearPass wb) = f wb :=
  clearPass_keeps (P := fun m => f m = f wb) (fun m x y hm => (hplot m x y).trans hm) rfl

/-- The clear pass is redundant after the zero-fill: every cell lies in the bytes that are 0 already
(`41_encode.md` R102). -/
theorem wbGet_clearPass_zeroFill (wb : Memory) (i : Nat) :
    wbGet (clearPass (zeroFill wb)) i = wbGet (zeroFill wb) i := by
  refine BitVec.eq_of_getLsbD_eq fun j _ => ?_
  refine clearPass_keeps
    (P := fun m => (wbGet m i).getLsbD j = (wbGet (zeroFill wb) i).getLsbD j) (fun m x y hm => ?_) rfl
  rw [wbGet_plot_getLsbD]
  by_cases hcell : IsCell i j x y
  · have ⟨hx, hy, hi, _⟩ := hcell
    rw [if_pos hcell, wbGet_zeroFill, if_pos (hi ▸ byteOffset_lt hx hy)]
    exact BitVec.getLsbD_zero.symm
  · rw [if_neg hcell, hm]

/-- The paint pass reads a byte of WB only to write that byte. -/
theorem wbGet_paintPass_congr (src : Nat → Byte) {wb wb' : Memory} {i : Nat}
    (h : wbGet wb i = wbGet wb' i) : wbGet (paintPass src wb) i = wbGet (paintPass src wb') i := by
  refine BitVec.eq_of_getLsbD_eq fun j _ => ?_
  rw [Bool.eq_iff_iff, paintPass_getLsbD_iff, paintPass_getLsbD_iff, h]

/-- Settles O23: the clear pass is made of plots, so it reaches the cells and nothing else, and after the
zero-fill it finds them 0. -/
theorem clearPassIsNotAFullClear : Obligations.ClearPassIsNotAFullClear := by
  unfold Obligations.ClearPassIsNotAFullClear
  intro wb
  refine ⟨fun i hi => ?_, wbGet_clearPass_zeroFill wb, fun src i => ?_, fun x y => clearPass_cell wb,
    fun i hi => ?_, fun i => ?_, ?_⟩
  · rw [wbGet_zeroFill, if_pos hi]
  · exact wbGet_paintPass_congr src (wbGet_clearPass_zeroFill wb i)
  · exact clearPass_unchanged (f := (wbGet · i)) (fun m x y => wbGet_plot_of_lt_four x y false m hi) wb
  · exact clearPass_unchanged (f := fun m => (wbGet m i).getLsbD 7)
      (fun m x y => wbGet_plot_bit_seven x y false m i) wb
  · exact clearPass_unchanged (f := fun m => (wbGet m 1174).extractLsb' 0 5)
      (fun m x y => wbGet_plot_last_low x y false m) wb

/-! ### Every command and every step completes -/

/-- The one ill-formed command, an SBW past the end of SB, is rejected as its word is
(`30_encoding.md` R66, case (e)). -/
theorem exec_illFormed {i : Instr} (hwf : i.wellFormed = false) (s : State) :
    exec i s = .next (s.raise .malformedCommand) := by
  cases i with
  | sbw addr data => exact exec_sbw_outOfRange data s (of_decide_eq_false hwf)
  | _ => cases hwf

/-- Everything a command can do: it executes or is rejected (`60_exceptions.md` R138). -/
theorem exec_cases (i : Instr) (s : State) :
    ∃ t, exec i s = .next t ∧ (Executed i s t ∨ t = s.raise .malformedCommand) := by
  cases hwf : i.wellFormed with
  | true =>
    obtain ⟨t, ht, hex⟩ := exec_wellFormed hwf s
    exact ⟨t, ht, .inl hex⟩
  | false => exact ⟨_, exec_illFormed hwf s, .inr rfl⟩

theorem step_next (s : State) : ∃ t, step s = .next t := by
  match hport : s.port with
  | [] => exact ⟨_, step_idle hport⟩
  | .command w :: rest =>
    rw [step_command hport]
    exact runWord_next w _
  | .reset :: rest => exact ⟨_, step_resetEvent hport⟩
  | .resetDuring w :: rest => exact ⟨_, step_resetDuring hport⟩

/-- Settles O38: a command executes or is rejected, and a step waits, runs a word or takes a reset. -/
theorem everyCommandCompletes : Obligations.EveryCommandCompletes := by
  unfold Obligations.EveryCommandCompletes
  refine ⟨fun i s => ?_, step_next⟩
  obtain ⟨t, ht, -⟩ := exec_cases i s
  exact ⟨t, ht⟩

/-! ### When SB is sampled -/

/-- No SBW writes WB, whether it executes or is rejected. -/
theorem exec_sbw_sameWb (addr : BitVec 10) (data : Byte) (s : State) :
    ∃ t, exec (.sbw addr data) s = .next t ∧ SameWb s t := by
  obtain ⟨t, ht, hex | rfl⟩ := exec_cases (.sbw addr data) s
  · exact ⟨t, ht, hex.sameWb_of_sbw⟩
  · exact ⟨_, ht, fun _ => rfl⟩

/-- A command before ENCODE does not change what ENCODE leaves in WB, where it keeps the bytes of SB that
ENCODE reads. -/
theorem execAll_encode_congr {i : Instr} {s u : State} (hu : exec i s = .next u)
    (h : ∀ x y, x < 120 → y < 56 → sbGet u (sourceAddr x y) = sbGet s (sourceAddr x y)) :
    ∃ t v, execAll [i, .encode] s = .next t ∧ exec .encode s = .next v ∧
      ∀ k, k < 1175 → wbGet t.wb k = wbGet v.wb k := by
  obtain ⟨t, v, ht, hv, hsame⟩ := exec_encode_congr h
  exact ⟨t, v, execAll_pair hu ht, hv, hsame⟩

/-- Byte 15 of a source row, its columns 120..127, is never read (`41_encode.md` R108). -/
theorem sourceAddr_mod_lt (y : Nat) {x : Nat} (hx : x < 120) : sourceAddr x y % 16 < 15 := by
  unfold sourceAddr; omega

/-- Settles O24: SBW writes no WB, ENCCLR no SB, and ENCODE forms no address whose low four bits are 15. -/
theorem sourceSampledByEncode : Obligations.SourceSampledByEncode := by
  unfold Obligations.SourceSampledByEncode
  refine ⟨fun addr d s => ?_, fun s => ?_, fun addr d s hrange hcol => ?_⟩
  · obtain ⟨u, hu, -⟩ := exec_encode_next s
    obtain ⟨t, ht, hsame⟩ := exec_sbw_sameWb addr d u
    exact ⟨t, execAll_pair hu ht, u, hu, hsame⟩
  · obtain ⟨u, hu, hex⟩ := exec_wellFormed (i := .encclr) rfl s
    exact execAll_encode_congr hu fun _ _ _ _ => congrFun (hex.sbGet_eq fun _ _ => nofun) _
  · obtain ⟨u, hu, hex⟩ := exec_wellFormed (i := .sbw addr d) (decide_eq_true hrange) s
    refine execAll_encode_congr hu fun x y hx _ => ?_
    have hread := sourceAddr_mod_lt y hx
    have hne : sourceAddr x y ≠ addr.toNat := fun h => by omega
    rw [hex.sbGet_sbw, if_neg hne]

/-! ### Reset -/

/-- Settles O1: both memories and TX are empty and STAT is 0, and an unlisted byte of WB reads 0. -/
theorem resetState : Obligations.ResetState := by
  unfold Obligations.ResetState
  exact ⟨fun i _ => wbGet_nil i, rfl, rfl, rfl, rfl, rfl⟩

/-- The reset signal leaves the same state whether a command is running or not
(`70_reset_and_hazards.md` R155). -/
theorem step_reset {s : State} {rest : List HostEvent} {w : CmdWord}
    (h : s.port = .reset :: rest ∨ s.port = .resetDuring w :: rest) :
    step s = .next (s.applyReset rest) :=
  h.elim step_resetEvent step_resetDuring

/-- Settles O2: the step applies the reset, whose fields are those of the reset state but for the
remaining events and the draw. -/
theorem resetSignalResets : Obligations.ResetSignalResets := by
  unfold Obligations.ResetSignalResets
  intro s rest w hport
  refine ⟨_, step_reset hport, fun i _ => wbGet_nil i, rfl, rfl, rfl, ?_, rfl, rfl, rfl⟩
  rw [applyReset_stat]; rfl

end Sys2Proof.Machine

/-! ## The idle step -/

namespace Sys2Proof.Machine

/-- Settles O37: this is the law of the step on an empty list of events. -/
theorem stepWaits : Obligations.StepWaits := by
  unfold Obligations.StepWaits
  exact fun _ hport => step_idle hport

end Sys2Proof.Machine
